-- ==== Sys2Proof/Word.lean ====
section
/-! DEFINITION. The words of the Soft I2C master: bytes, line levels and the narrow register fields. -/

namespace Sys2Proof

/-- One byte: a host register, or one byte on the bus (10_state.md R18). -/
abbrev Byte := BitVec 8

/-- The level of a line, or of the engine's driver of it, or what the environment lets it have: `true` is 1
(released, high), `false` is 0 (driven or pulled low) (00_scope.md R14, R15). -/
abbrev Level := Bool

/-- A byte offset into the sixteen-register window (20_memory.md R41). -/
abbrev Offset := BitVec 4

/-- A page row, 0 to 7 (10_state.md R29). -/
abbrev Row := BitVec 3

/-- A pixel column, 0 to 127 (10_state.md R29). -/
abbrev Col := BitVec 7

/-- A 7-bit bus device address (20_memory.md R41). -/
abbrev Addr7 := BitVec 7

/-- The 16-bit count of acknowledged bytes (10_state.md R28). -/
abbrev Count := BitVec 16

/-- The direction bit of an address byte: 0 write, 1 read (20_memory.md R44). -/
inductive Direction where
  | write
  | read
deriving DecidableEq, Repr

/-- The two kinds of control byte: command stream (k = 0) and data stream (k = 1) (42_display_controller.md R92). -/
inductive StreamKind where
  | command
  | data
deriving DecidableEq, Repr

end Sys2Proof
end

