-- ==== Sys2Proof/Config.lean ====
section
/-! DEFINITION. The constants the source fixes, the parameters it leaves open, and the free draws of the environment
(00_scope.md R9, R10, R15; 92_eei_decisions.md D14 to D17, D28, D29, D41). -/

namespace Sys2Proof.Config

/-! ### Constants the source fixes (00_scope.md R9) -/

/-- `ROWS`: the number of page rows. -/
def rows : Nat := 8

/-- `COLS`: the number of pixel columns. -/
def cols : Nat := 128

/-- `GLYPH_W`: bytes per glyph and columns of cursor advance. -/
def glyphW : Nat := 6

/-- `WRAP_COL`: the column at which the cursor wraps to the next row. -/
def wrapCol : Nat := 126

/-- `CLEAR_BYTES`: the zero bytes CLEAR sends. -/
def clearBytes : Nat := 1024

/-- `DATA_BITS`: bit slots of a byte transfer. -/
def dataBits : Nat := 8

/-- `ACK_BITS`: bit slots of an acknowledge. -/
def ackBits : Nat := 1

/-! ### Parameters (00_scope.md R10) -/

/-- The configuration script of INIT: its sixteen items in the order 42_display_controller.md R94 gives, each the
command byte with its argument bytes where it has any (assumption log 17). -/
structure InitScript where
  displayOff            : List Byte
  multiplexRatio        : List Byte
  displayOffset         : List Byte
  startLine             : List Byte
  segmentRemap          : List Byte
  scanDirection         : List Byte
  comPinConfig          : List Byte
  contrast              : List Byte
  entireDisplayOn       : List Byte
  normalPolarity        : List Byte
  clockDivideRatio      : List Byte
  chargePumpEnable      : List Byte
  deselectLevel         : List Byte
  horizontalAddressing  : List Byte
  prechargePeriod       : List Byte
  displayOn             : List Byte
deriving DecidableEq, Repr, Inhabited

/-- What an access of another width than 8 bits does: fixed to `refuse` (20_memory.md R47, D28). -/
inductive HostWideAccess where
  | refuse
deriving DecidableEq, Repr, Inhabited

/-- The named parameters a model of the block takes (00_scope.md R10; the table of open parameters of
92_eei_decisions.md). The three times are in nanoseconds and no step depends on them (R9, R129). -/
structure Params where
  displayAddr    : Addr7
  ctrlCmd        : Byte
  ctrlData       : Byte
  cmdSetPage     : Byte
  cmdSetCol      : Byte
  initScript     : InitScript
  regBase        : Nat
  hostWideAccess : HostWideAccess
  tHigh          : Nat
  tLow           : Nat
  tSu            : Nat
deriving DecidableEq, Repr, Inhabited

/-- The parameters of the machine that comes out of reset: open, as 00_scope.md R10 leaves them (assumption log 1). -/
opaque params : Params

/-- The sixteen items of the 25-byte script 92_eei_decisions.md D17 offers (general knowledge there, GK9). -/
def defaultInitScript : InitScript where
  displayOff           := [0xAE]
  multiplexRatio       := [0xA8, 0x3F]
  displayOffset        := [0xD3, 0x00]
  startLine            := [0x40]
  segmentRemap         := [0xA1]
  scanDirection        := [0xC8]
  comPinConfig         := [0xDA, 0x12]
  contrast             := [0x81, 0x7F]
  entireDisplayOn      := [0xA4]
  normalPolarity       := [0xA6]
  clockDivideRatio     := [0xD5, 0x80]
  chargePumpEnable     := [0x8D, 0x14]
  deselectLevel        := [0xDB, 0x40]
  horizontalAddressing := [0x20, 0x00]
  prechargePeriod      := [0xD9, 0xF1]
  displayOn            := [0xAF]

/-- The defaults 92_eei_decisions.md offers (D14 to D17, D28, D29), for tests against 95_test_vectors.md. The place of
the window has no default (D41), so it stays an argument (assumption log 18). -/
def defaultParams (regBase : Nat) : Params where
  displayAddr    := 0x3C
  ctrlCmd        := 0x00
  ctrlData       := 0x40
  cmdSetPage     := 0x22
  cmdSetCol      := 0x21
  initScript     := defaultInitScript
  regBase        := regBase
  hostWideAccess := .refuse
  tHigh          := 5000
  tLow           := 5000
  tSu            := 2500

/-! ### Free draws of the environment (00_scope.md R15; 93_implementation_defined.md U1) -/

/-- The level the environment lets SCL have at a read for which no scripted level is left, one for each number of
such reads so far (assumption log 2). -/
opaque freeScl : Nat → Level

/-- The same for SDA (assumption log 2). -/
opaque freeSda : Nat → Level

end Sys2Proof.Config
end

