-- ==== Sys2Proof/Machine/State.lean ====
section
/-! DEFINITION. The state of the block and of the two agents around it, the reasons a step can stop, and the state after
reset (10_state.md R18 to R40; 70_reset_and_hazards.md R118). -/

namespace Sys2Proof.Machine

/-- The sixteen registers of the window (10_state.md R18). -/
inductive Reg where
  | cmd | data | status | err | xcntLo | xcntHi | curRow | curCol
  | wrow | wcol | gbuf0 | gbuf1 | gbuf2 | gbuf3 | gbuf4 | gbuf5
deriving DecidableEq, Repr

/-- `ERR.CODE`. The values 4 to 7 are never written (10_state.md R26; 93_implementation_defined.md U11; assumption
log 13). -/
inductive ErrCode where
  | ok | nack | illegal | state
deriving DecidableEq, Repr

/-- `_bus`, the engine's bus state (10_state.md R34). -/
inductive BusState where
  | idle | held
deriving DecidableEq, Repr

/-- The times a `Hold` of the pseudocode names (41_bus_engine.md R74, R81, R82); timing only (R129). -/
inductive HoldTime where
  | tLow | tSu | tHigh
  /-- `T_HIGH - T_SU`, the rest of a bit slot's high phase (R74). -/
  | tHighRest
deriving DecidableEq, Repr

/-- An event of the line trace (00_scope.md R14). -/
inductive LineEvent where
  | scl (v : Level)
  | sda (v : Level)
  | wait
  | sample (b : Level)
deriving DecidableEq, Repr

/-- What the caller of `ClockBit` does with the bit it returns (41_bus_engine.md R75 to R78, R84, R85). -/
inductive SlotUse where
  /-- A data slot: the bit is shifted into `_sr` and `_bitcnt` counts down (R75, R76). -/
  | shift
  /-- The acknowledge slot of `Wr`: a NACK aborts, an acknowledge is counted (R78). -/
  | ackOfSent
  /-- The acknowledge slot of RDBYTE (R84). -/
  | ackOfReceived
  /-- The slot of ACKBIT, whose bit goes to `DATA` (R85). -/
  | ackToData
deriving DecidableEq, Repr

/-- One step of a command's pseudocode, as it stands in `_seq`: a line primitive, one register write, a loop test, or a
call that unfolds into its body (00_scope.md R14; 40_command_issue.md R68; 41_bus_engine.md R74 to R78; assumption log 10).
A value the pseudocode keeps in a local variable is written into the steps that use it (assumption log 11). -/
inductive Micro where
  /-- `SetSCL(v)`. -/
  | setScl (v : Level)
  /-- `SetSDA(v)`. -/
  | setSda (v : Level)
  /-- `Hold(t)`. -/
  | hold (t : HoldTime)
  /-- `WaitSCLHigh()`. -/
  | waitScl
  /-- `s <- SampleSDA()` and the rest of `ClockBit`, whose result goes to `use`. -/
  | sample (use : SlotUse)
  /-- `_sr <- b`. -/
  | loadShift (b : Byte)
  /-- `_bitcnt <- n`. -/
  | loadCount (n : BitVec 4)
  /-- `while _bitcnt > 0` of `ShiftOut`. -/
  | outLoop
  /-- `while _bitcnt > 0` of `ShiftIn`. -/
  | inLoop
  /-- `_sr <- {_sr[6:0], s}`. -/
  | shift (s : Level)
  /-- `_bitcnt <- _bitcnt - 1`. -/
  | countDown
  /-- `STATUS.ACK <- (if s = 0 then 1 else 0)`. -/
  | recordAck (s : Level)
  /-- `if s = 1 then abort(NACK)`. -/
  | abortIf (s : Level)
  /-- `XCNT <- XCNT + 1 mod 2^16`. -/
  | countByte
  /-- `_bus <- b`. -/
  | setBus (b : BusState)
  /-- `DATA <- v`. -/
  | storeData (v : Byte)
  /-- `DATA <- b` where `b` is what `ShiftIn` returned, still in `_sr`. -/
  | storeShift
  /-- `Wr(b)`. -/
  | wr (b : Byte)
  /-- `repeat n times: Wr(0x00)`. -/
  | zeros (n : Nat)
  /-- `CUR_ROW.ROW <- r`. -/
  | setRow (r : Row)
  /-- `CUR_COL.COL <- c`. -/
  | setCol (c : Col)
  /-- `Advance()`. -/
  | advance
  /-- `ERR.CODE <- c`. -/
  | setCode (c : ErrCode)
deriving DecidableEq, Repr

/-- One move of the schedule of inputs: what the host does, a reset, or a turn of the engine
(00_scope.md R11; 40_command_issue.md R68; 70_reset_and_hazards.md R131). -/
inductive Input where
  /-- The engine takes its next step. -/
  | engine
  /-- `ReadReg(off)`. -/
  | read (off : Offset)
  /-- `WriteReg(off, v)`. -/
  | write (off : Offset) (v : Byte)
  /-- The host reads `STATUS` until `BUSY` reads 0, while the engine runs (30_encoding.md R61 `wait`). -/
  | wait
  /-- A read of `bits` bits at a byte address of the host's address space (20_memory.md R42, R47). -/
  | memRead (addr bits : Nat)
  /-- A write of the value `v` of `bits` bits at a byte address (R42, R47). -/
  | memWrite (addr bits v : Nat)
  /-- The reset input is asserted and released. -/
  | reset
deriving DecidableEq, Repr

/-- A value the host got from a register read. -/
structure HostRead where
  off   : Offset
  value : Byte
deriving DecidableEq, Repr

/-- The whole state. First what the spec gives the block (10_state.md), then the parameters, then the model's own: the
observations, and the moves of the host and the environment still to come. -/
@[ext]
structure State where
  /-- `DATA` (R22). -/
  data   : Byte
  /-- `STATUS.ACK` (R25). -/
  ack    : Bool
  /-- `ERR.CODE` (R26). -/
  code   : ErrCode
  /-- `ERR.OVR` (R27). -/
  ovr    : Bool
  /-- `XCNT` (R28). -/
  xcnt   : Count
  /-- `CUR_ROW.ROW` (R29). -/
  curRow : Row
  /-- `CUR_COL.COL` (R29). -/
  curCol : Col
  /-- `WROW.ROW` (R31). -/
  wrow   : Row
  /-- `WCOL.COL` (R31). -/
  wcol   : Col
  /-- `GBUF0` (R32). -/
  gbuf0  : Byte
  /-- `GBUF1` (R32). -/
  gbuf1  : Byte
  /-- `GBUF2` (R32). -/
  gbuf2  : Byte
  /-- `GBUF3` (R32). -/
  gbuf3  : Byte
  /-- `GBUF4` (R32). -/
  gbuf4  : Byte
  /-- `GBUF5` (R32). -/
  gbuf5  : Byte
  /-- `_sclOut` (R33). -/
  sclOut : Level
  /-- `_sdaOut` (R33). -/
  sdaOut : Level
  /-- `_bus` (R34); `STATUS.HELD` is the view of it (R24; assumption log 9). -/
  bus    : BusState
  /-- `_sr` (R35; assumption log 14). -/
  sr     : Byte
  /-- `_bitcnt` (R35). -/
  bitcnt : BitVec 4
  /-- `_seq`: what is left of the running command's pseudocode, none when no command runs (R36); `STATUS.BUSY` is the
  view of it (R23). -/
  seq    : Option (List Micro)
  /-- The parameters of the machine (00_scope.md R10); nothing writes them (assumption log 1). -/
  params : Config.Params
  /-- The line trace, newest event first (00_scope.md R14; assumption log 5). -/
  trace  : List LineEvent
  /-- The values the host has read, newest first (assumption log 5). -/
  reads  : List HostRead
  /-- The moves still to come, in order (assumption log 3). -/
  inputs : List Input
  /-- The levels the environment lets SCL have at the coming reads (assumption log 2). -/
  envScl : List Level
  /-- The levels the environment lets SDA have at the coming reads (assumption log 2). -/
  envSda : List Level
  /-- How many reads have taken a free draw (assumption log 2). -/
  draws  : Nat
deriving DecidableEq, Repr

/-- The block takes no traps and stops with no error: what goes wrong is reported in `ERR` (60_exceptions.md R102), so
there is no reason for a fault. Nothing raises one. Safe: no behaviour is cut off. -/
inductive Fault where
deriving DecidableEq, Repr

/-- Why a step has no meaning. -/
inductive Refusal where
  /-- Raised by an arm of `exec` whose instruction has no meaning yet; no arm is left so. Safe. -/
  | notModelled (mnemonic : String)
  /-- Raised by a host access of a width other than 8 bits, which "is not an operation of the block"
  (20_memory.md R47, `HOST_WIDE_ACCESS = refuse`; 93_implementation_defined.md U4). Safe. -/
  | wideAccess (bits : Nat)
  /-- Raised by a host access to an address outside the sixteen bytes of the window, which is the platform's and not
  the block's (20_memory.md R43; assumption log 12). Safe. -/
  | outsideWindow (addr : Nat)
deriving DecidableEq, Repr

/-- The state after reset (10_state.md R40; 70_reset_and_hazards.md R118). -/
def State.reset : State where
  data   := 0x00
  ack    := false
  code   := .ok
  ovr    := false
  xcnt   := 0x0000
  curRow := 0
  curCol := 0
  wrow   := 0
  wcol   := 0
  gbuf0  := 0x00
  gbuf1  := 0x00
  gbuf2  := 0x00
  gbuf3  := 0x00
  gbuf4  := 0x00
  gbuf5  := 0x00
  sclOut := true
  sdaOut := true
  bus    := .idle
  sr     := 0x00
  bitcnt := 0
  seq    := none
  params := Config.params
  trace  := []
  reads  := []
  inputs := []
  envScl := []
  envSda := []
  draws  := 0

end Sys2Proof.Machine
end

