-- ==== Sys2Proof/Machine/Flags.lean ====
section
/-! DEFINITION. The flag-like state and how the host sees it: `STATUS`, `ERR`, and the result of an acknowledge slot
(10_state.md R19, R23 to R27, R39; 40_command_issue.md R63). -/

namespace Sys2Proof.Machine

/-- `STATUS.BUSY`: a command runs (R23; R36 lets `_seq` exist just then). -/
def State.busy (s : State) : Bool := s.seq.isSome

/-- `STATUS.HELD`: `_bus` is HELD (R24). -/
def State.held (s : State) : Bool :=
  match s.bus with
  | .idle => false
  | .held => true

/-- `STATUS.ACK` after an acknowledge slot that sampled level `b`: low is acknowledge (R25). -/
def ackOf (b : Level) : Bool := !b

/-- The value of `ERR.CODE` (R26). -/
def ErrCode.bits : ErrCode → BitVec 3
  | .ok      => 0
  | .nack    => 1
  | .illegal => 2
  | .state   => 3

/-- `zext_8({ACK, HELD, BUSY})` (R63). -/
def statusByte (ack held busy : Bool) : Byte :=
  0#5 ++ (BitVec.ofBool ack ++ (BitVec.ofBool held ++ BitVec.ofBool busy))

/-- `{OVR, 0b0000, CODE}` (R63). -/
def errByte (ovr : Bool) (code : ErrCode) : Byte := BitVec.ofBool ovr ++ (0#4 ++ code.bits)

/-- `ERR.OVR` after a host write of `v` to `ERR` while not busy: bit 7 = 1 clears it (R27, R64). -/
def ovrAfterWrite (ovr : Bool) (v : Byte) : Bool := ovr && !v.getLsbD 7

end Sys2Proof.Machine
end

