-- ==== Sys2Proof/Syntax.lean ====
section
/-! DEFINITION. The eleven commands of 30_encoding.md R58, one constructor for each row of opcode_table.json. -/

namespace Sys2Proof

/-- A command, with the one-bit modifier `MOD[0]` where it has one (30_encoding.md R57, R58). -/
inductive Instr where
  /-- START, 41_bus_engine.md R81. -/
  | start
  /-- STOP, 41_bus_engine.md R82. -/
  | stop
  /-- WRBYTE, 41_bus_engine.md R83. -/
  | wrbyte
  /-- RDBYTE a, 41_bus_engine.md R84: `a` is the level driven in the acknowledge slot. -/
  | rdbyte (a : Level)
  /-- ACKBIT d, 41_bus_engine.md R85: `d` is the level driven in the slot. -/
  | ackbit (d : Level)
  /-- CONNECT r, 42_display_controller.md R91. -/
  | connect (r : Direction)
  /-- CTRLBYTE k, 42_display_controller.md R92. -/
  | ctrlbyte (k : StreamKind)
  /-- INIT, 42_display_controller.md R93. -/
  | init
  /-- SETWIN, 42_display_controller.md R95. -/
  | setwin
  /-- CLEAR, 42_display_controller.md R96. -/
  | clear
  /-- GLYPH, 42_display_controller.md R97. -/
  | glyph
deriving DecidableEq, Repr

end Sys2Proof
end

