-- ==== Sys2Proof/WellFormed.lean ====
section
/-! DEFINITION. Which command words are legal, as three separate checks on the fields of the word
(30_encoding.md R55, R59), and well-formed instructions. -/

namespace Sys2Proof

/-- `OP`, bits 7:4 of a command word (R55). -/
def wordOp (w : Byte) : BitVec 4 := w.extractLsb' 4 4

/-- `MOD[3:1]`, bits 3:1 of a command word (R55). -/
def wordMod31 (w : Byte) : BitVec 3 := w.extractLsb' 1 3

/-- `MOD[0]`, bit 0 of a command word (R55). -/
def wordMod0 (w : Byte) : Bool := w.getLsbD 0

/-- `OP` selects a command: it is none of 0x0, 0x6, 0x7, 0xE, 0xF (R59). -/
def opAssigned (op : BitVec 4) : Bool :=
  op != 0x0#4 && op != 0x6#4 && op != 0x7#4 && op != 0xE#4 && op != 0xF#4

/-- The command of `OP` has no modifier, so that `MOD[0]` must be 0: 0x1, 0x2, 0x3, 0xA, 0xB, 0xC, 0xD (R59). -/
def opWithoutModifier (op : BitVec 4) : Bool :=
  op == 0x1#4 || op == 0x2#4 || op == 0x3#4 || op == 0xA#4 || op == 0xB#4 || op == 0xC#4 || op == 0xD#4

/-- A command word is legal: an assigned `OP`, `MOD[3:1]` zero, and `MOD[0]` zero where the command has no modifier
(R55, R59). -/
def wordLegal (w : Byte) : Bool :=
  opAssigned (wordOp w) && wordMod31 w == 0#3 && !(opWithoutModifier (wordOp w) && wordMod0 w)

/-- Every term of `Instr` is well formed: the operand types hold just the values an encoding admits (R57). What can be
ill formed is a command word, and `wordLegal` checks it. -/
def Instr.wellFormed : Instr → Bool
  | .start      => true
  | .stop       => true
  | .wrbyte     => true
  | .rdbyte _   => true
  | .ackbit _   => true
  | .connect _  => true
  | .ctrlbyte _ => true
  | .init       => true
  | .setwin     => true
  | .clear      => true
  | .glyph      => true

end Sys2Proof
end

