-- ==== Sys2Proof/Decode.lean ====
section
/-! DEFINITION. Decoding a command word, total and rejecting by name, and the encoder (30_encoding.md R55 to R59). -/

namespace Sys2Proof

/-- Why a command word is illegal (30_encoding.md R59); each is reported as `ERR.CODE = ILLEGAL`. -/
inductive DecodeError where
  /-- `OP` selects no command. -/
  | reservedOp (op : BitVec 4)
  /-- `OP` is legal and `MOD[3:1]` is not zero. -/
  | modHighBits (mod31 : BitVec 3)
  /-- `MOD[0]` is 1 and the command has no modifier. -/
  | noModifier (op : BitVec 4)
deriving DecidableEq, Repr

/-- The direction of an address byte as its bit: 0 write, 1 read (20_memory.md R44). -/
def Direction.bit : Direction → Bool
  | .write => false
  | .read  => true

/-- The direction a modifier bit `r` names (R58). -/
def Direction.ofBit : Bool → Direction
  | false => .write
  | true  => .read

/-- The stream kind as the modifier bit `k` (R58). -/
def StreamKind.bit : StreamKind → Bool
  | .command => false
  | .data    => true

/-- The stream kind a modifier bit `k` names (R58). -/
def StreamKind.ofBit : Bool → StreamKind
  | false => .command
  | true  => .data

/-- A command without modifier: its word must have `MOD[0]` = 0 (R59). -/
def plainCommand (op : BitVec 4) (i : Instr) (m : Bool) : Except DecodeError Instr :=
  if m then .error (.noModifier op) else .ok i

/-- The command `OP` and `MOD[0]` select, `MOD[3:1]` being zero (R58). -/
def decodeOp (op : BitVec 4) (m : Bool) : Except DecodeError Instr :=
  match op.toNat with
  | 0x1 => plainCommand op .start m
  | 0x2 => plainCommand op .stop m
  | 0x3 => plainCommand op .wrbyte m
  | 0x4 => .ok (.rdbyte m)
  | 0x5 => .ok (.ackbit m)
  | 0x8 => .ok (.connect (.ofBit m))
  | 0x9 => .ok (.ctrlbyte (.ofBit m))
  | 0xA => plainCommand op .init m
  | 0xB => plainCommand op .setwin m
  | 0xC => plainCommand op .clear m
  | 0xD => plainCommand op .glyph m
  | _   => .error (.reservedOp op)

/-- The instruction a command word stands for, or why it is illegal (R56: one byte is the whole command). -/
def decode (w : Byte) : Except DecodeError Instr :=
  match decodeOp (wordOp w) (wordMod0 w) with
  | .error (.reservedOp op) => .error (.reservedOp op)
  | r => if wordMod31 w = 0#3 then r else .error (.modHighBits (wordMod31 w))

/-- The word of an `OP` with `MOD[3:1]` = 0 and modifier bit `m` (R55). -/
def commandWord (op : BitVec 4) (m : Bool) : Byte := op ++ (0#3 ++ BitVec.ofBool m)

/-- The command word of an instruction (R58). -/
def encode : Instr → Byte
  | .start      => commandWord 0x1 false
  | .stop       => commandWord 0x2 false
  | .wrbyte     => commandWord 0x3 false
  | .rdbyte a   => commandWord 0x4 a
  | .ackbit d   => commandWord 0x5 d
  | .connect r  => commandWord 0x8 r.bit
  | .ctrlbyte k => commandWord 0x9 k.bit
  | .init       => commandWord 0xA false
  | .setwin     => commandWord 0xB false
  | .clear      => commandWord 0xC false
  | .glyph      => commandWord 0xD false

/-- The one command byte that the opcode table's number `w` of `nbits` bits stands for: every bit above `nbits` is 0. -/
def tableWordByte (nbits w : Nat) : Byte := BitVec.ofNat 8 (w % 2 ^ nbits)

/-- The instruction the decoder reads from an opcode-table word. A command is one byte (R56), so a number with a bit
above bit 7 is no command word. -/
def decodeTableWord (nbits w : Nat) : Option Instr :=
  if w % 2 ^ nbits < 256 then (decode (tableWordByte nbits w)).toOption else none

end Sys2Proof
end

