-- ==== Sys2Proof/Machine/Operands.lean ====
section
/-! DEFINITION. The operands of the commands, the shift register's step, and the cursor's arithmetic
(30_encoding.md R57; 41_bus_engine.md R75; 42_display_controller.md R98, R99). -/

namespace Sys2Proof.Machine

/-- The address byte `{addr7, rw}` (20_memory.md R44). -/
def addressByte (a7 : Addr7) (rw : Direction) : Byte := a7 ++ BitVec.ofBool rw.bit

/-- CONNECT's device address, `DATA[6:0]` with `DATA[7]` ignored (R57, R91). -/
def deviceAddress (data : Byte) : Addr7 := data.setWidth 7

/-- The control byte CTRLBYTE sends (R57, R92). -/
def controlByte (p : Config.Params) : StreamKind → Byte
  | .command => p.ctrlCmd
  | .data    => p.ctrlData

/-- `zext_8` of a page row (R57). -/
def rowByte (r : Row) : Byte := r.setWidth 8

/-- `zext_8` of a pixel column (R57). -/
def colByte (c : Col) : Byte := c.setWidth 8

/-- The last page row of every window: the constant 7 (42_display_controller.md R88). -/
def lastRowByte : Byte := 7

/-- The last column of every window: the constant 127 (R88). -/
def lastColByte : Byte := 127

/-- The script of INIT: its items in order, `N_INIT` bytes in all (R93, R94). -/
def scriptBytes (t : Config.InitScript) : List Byte :=
  t.displayOff ++ t.multiplexRatio ++ t.displayOffset ++ t.startLine ++ t.segmentRemap ++ t.scanDirection ++
  t.comPinConfig ++ t.contrast ++ t.entireDisplayOn ++ t.normalPolarity ++ t.clockDivideRatio ++
  t.chargePumpEnable ++ t.deselectLevel ++ t.horizontalAddressing ++ t.prechargePeriod ++ t.displayOn

/-- The six bytes of the glyph buffer in the order GLYPH sends them (10_state.md R32). -/
def glyphBytes (s : State) : List Byte := [s.gbuf0, s.gbuf1, s.gbuf2, s.gbuf3, s.gbuf4, s.gbuf5]

/-- `{_sr[6:0], s}` (41_bus_engine.md R75, R76). -/
def shiftIn (sr : Byte) (b : Level) : Byte := sr.setWidth 7 ++ BitVec.ofBool b

/-- `zext_8` of a sampled bit (R85). -/
def bitByte (b : Level) : Byte := 0#7 ++ BitVec.ofBool b

/-- The exact column sum of `Advance()` (R98, R99). -/
def advancedColumn (c : Col) : Nat := c.toNat + Config.glyphW

/-- The length of a `Hold` in nanoseconds (R129); no step depends on it. -/
def holdTime (p : Config.Params) : HoldTime → Nat
  | .tLow      => p.tLow
  | .tSu       => p.tSu
  | .tHigh     => p.tHigh
  | .tHighRest => p.tHigh - p.tSu

end Sys2Proof.Machine
end

