-- ==== Sys2Proof/Machine/Ops.lean ====
section
/-! DEFINITION. The shared operations: registers of the window by offset, the line primitives, and the life of a command,
with the two ways the block reports an error (`reject`, `abort`), which stand for taking an exception
(00_scope.md R14 to R16; 40_command_issue.md R63 to R69; 60_exceptions.md R102, R107). -/

namespace Sys2Proof.Machine

/-! ### The window -/

/-- The offset of a register (10_state.md R18). -/
def Reg.offset : Reg → Offset
  | .cmd    => 0x0
  | .data   => 0x1
  | .status => 0x2
  | .err    => 0x3
  | .xcntLo => 0x4
  | .xcntHi => 0x5
  | .curRow => 0x6
  | .curCol => 0x7
  | .wrow   => 0x8
  | .wcol   => 0x9
  | .gbuf0  => 0xA
  | .gbuf1  => 0xB
  | .gbuf2  => 0xC
  | .gbuf3  => 0xD
  | .gbuf4  => 0xE
  | .gbuf5  => 0xF

/-- The register at an offset; every offset is used (R18). -/
def Reg.ofOffset (off : Offset) : Reg :=
  match off.toNat with
  | 0x0 => .cmd
  | 0x1 => .data
  | 0x2 => .status
  | 0x3 => .err
  | 0x4 => .xcntLo
  | 0x5 => .xcntHi
  | 0x6 => .curRow
  | 0x7 => .curCol
  | 0x8 => .wrow
  | 0x9 => .wcol
  | 0xA => .gbuf0
  | 0xB => .gbuf1
  | 0xC => .gbuf2
  | 0xD => .gbuf3
  | 0xE => .gbuf4
  | _   => .gbuf5

/-- What the host reads from a register (40_command_issue.md R63). -/
def State.regValue (s : State) : Reg → Byte
  | .cmd    => 0x00
  | .data   => s.data
  | .status => statusByte s.ack s.held s.busy
  | .err    => errByte s.ovr s.code
  | .xcntLo => s.xcnt.extractLsb' 0 8
  | .xcntHi => s.xcnt.extractLsb' 8 8
  | .curRow => rowByte s.curRow
  | .curCol => colByte s.curCol
  | .wrow   => rowByte s.wrow
  | .wcol   => colByte s.wcol
  | .gbuf0  => s.gbuf0
  | .gbuf1  => s.gbuf1
  | .gbuf2  => s.gbuf2
  | .gbuf3  => s.gbuf3
  | .gbuf4  => s.gbuf4
  | .gbuf5  => s.gbuf5

/-- `ReadReg(off)` (R63). -/
def State.readReg (s : State) (off : Offset) : Byte := s.regValue (Reg.ofOffset off)

/-- The offset of a byte address of the host's address space, where the window holds it (20_memory.md R42, R43). -/
def windowOffset (p : Config.Params) (addr : Nat) : Option Offset :=
  if p.regBase ≤ addr ∧ addr < p.regBase + 16 then some (BitVec.ofNat 4 (addr - p.regBase)) else none

/-! ### Line primitives (00_scope.md R14, R15) -/

/-- Append an event to the line trace. -/
def State.emit (e : LineEvent) (s : State) : State := { s with trace := e :: s.trace }

/-- `SetSCL(v)`. -/
def State.setScl (v : Level) (s : State) : State := State.emit (.scl v) { s with sclOut := v }

/-- `SetSDA(v)`. -/
def State.setSda (v : Level) (s : State) : State := State.emit (.sda v) { s with sdaOut := v }

/-- `env(SCL)`: the environment's draw at this read, the next scripted level or a free one. -/
def State.envSclDraw (s : State) : Level := s.envScl.headD (Config.freeScl s.draws)

/-- The draw of SCL is used up. -/
def State.afterSclDraw (s : State) : State :=
  match s.envScl with
  | []      => { s with draws := s.draws + 1 }
  | _ :: es => { s with envScl := es }

/-- `env(SDA)`. -/
def State.envSdaDraw (s : State) : Level := s.envSda.headD (Config.freeSda s.draws)

/-- The draw of SDA is used up. -/
def State.afterSdaDraw (s : State) : State :=
  match s.envSda with
  | []      => { s with draws := s.draws + 1 }
  | _ :: es => { s with envSda := es }

/-- `line(SCL) = _sclOut AND env(SCL)`. -/
def State.lineScl (s : State) : Level := s.sclOut && s.envSclDraw

/-- `line(SDA) = _sdaOut AND env(SDA)`. -/
def State.lineSda (s : State) : Level := s.sdaOut && s.envSdaDraw

/-! ### The life of a command (40_command_issue.md R65 to R69) -/

/-- The running command goes on with `k`. -/
def State.goOn (k : List Micro) (s : State) : State := { s with seq := some k }

/-- A host write while busy: lost, and `ERR.OVR <- 1` (R65). -/
def State.overrun (s : State) : State := { s with ovr := true }

/-- `reject(code)`: the command is refused before it runs (R67). -/
def State.reject (code : ErrCode) (s : State) : State := { s with code := code, xcnt := 0 }

/-- Acceptance: `XCNT <- 0`, `STATUS.BUSY <- 1`, and the command starts; its normal end records `OK` (R66, R69). -/
def State.accept (script : List Micro) (s : State) : State :=
  State.goOn (script ++ [.setCode .ok]) { s with xcnt := 0 }

/-- `abort(code)`: no further step of the command runs, and its end records `code` (00_scope.md R16; R69, R107). -/
def State.abort (code : ErrCode) (s : State) : State := s.goOn [.setCode code]

/-- The end of a command: `STATUS.BUSY <- 0` (R69). -/
def State.endCommand (s : State) : State := { s with seq := none }

/-- `Issue(w)` of a legal word: in the bus state it requires the command is accepted with its pseudocode `script`, else
rejected with `STATE`; while busy the write is lost (R65, R66, R106; 30_encoding.md R60). -/
def issue (requires : BusState) (script : List Micro) (s : State) : Host.Outcome State Fault Refusal :=
  if s.busy then .next s.overrun
  else if s.bus = requires then .next (s.accept script)
  else .next (s.reject .state)

/-- The reset input: the block takes its reset state at once, whatever runs. The parameters, the moves still to come,
the environment's draws and what the host has read are not the block's; the line trace starts again
(70_reset_and_hazards.md R118, R119; assumption log 6). -/
def State.resetBlock (s : State) : State :=
  { State.reset with
    params := s.params, reads := s.reads, inputs := s.inputs, envScl := s.envScl, envSda := s.envSda, draws := s.draws }

end Sys2Proof.Machine
end

