-- ==== Sys2Proof/Machine/BusEngine.lean ====
section
/-! DEFINITION. The shared procedures of the Bus Engine as pseudocode steps, and its five commands
(41_bus_engine.md R73 to R85). -/

namespace Sys2Proof.Machine

/-- `ClockBit(v)` up to its sample; the sample's step goes on with `afterSample` (R74). -/
def clockBit (v : Level) (use : SlotUse) : List Micro :=
  [.setSda v, .hold .tLow, .setScl true, .waitScl, .hold .tSu, .sample use]

/-- What the caller does with the bit `b` that `ClockBit` returns (R75, R76, R77, R78, R85). -/
def slotResult (b : Level) : SlotUse → List Micro
  | .shift         => [.shift b, .countDown]
  | .ackOfSent     => [.loadCount 0, .recordAck b, .abortIf b, .countByte]
  | .ackOfReceived => [.loadCount 0, .recordAck b]
  | .ackToData     => [.loadCount 0, .recordAck b, .storeData (bitByte b)]

/-- The rest of `ClockBit` after `SampleSDA()` returned `b`, then its caller's use of `b` (R74). -/
def afterSample (b : Level) (use : SlotUse) : List Micro :=
  [.hold .tHighRest, .setScl false] ++ slotResult b use

/-- `ShiftOut(b)` (R75). -/
def shiftOut (b : Byte) : List Micro := [.loadShift b, .loadCount 8, .outLoop]

/-- `ShiftIn()` (R76). -/
def shiftInByte : List Micro := [.loadCount 8, .inLoop]

/-- `AckSlot(v)`, with the caller's use of its result (R77). -/
def ackSlot (v : Level) (use : SlotUse) : List Micro := .loadCount 1 :: clockBit v use

/-- The body of `Wr(b)`: the byte, then the released acknowledge slot with its check (R78). -/
def wrBody (b : Byte) : List Micro := shiftOut b ++ ackSlot true .ackOfSent

/-- `StartCond()`, the pseudocode of START (R81, R86). -/
def startCond : List Micro :=
  [.waitScl, .hold .tSu, .setSda false, .hold .tHigh, .setScl false, .setBus .held]

/-- `StopCond()`, the pseudocode of STOP (R82, R86). -/
def stopCond : List Micro :=
  [.setSda false, .hold .tLow, .setScl true, .waitScl, .hold .tSu, .setSda true, .hold .tLow, .setBus .idle]

/-- START: open a transaction with a start condition (R81). -/
def execStart (s : State) : Host.Outcome State Fault Refusal := issue .idle startCond s

/-- STOP: close the transaction with a stop condition and release the bus (R82). -/
def execStop (s : State) : Host.Outcome State Fault Refusal := issue .held stopCond s

/-- WRBYTE: send the byte in `DATA` and sample its acknowledge (R83). -/
def execWrbyte (s : State) : Host.Outcome State Fault Refusal := issue .held [.wr s.data] s

/-- RDBYTE a: receive a byte into `DATA` and clock the master's acknowledge slot at level `a` (R84). -/
def execRdbyte (a : Level) (s : State) : Host.Outcome State Fault Refusal :=
  issue .held (shiftInByte ++ ackSlot a .ackOfReceived ++ [.storeShift]) s

/-- ACKBIT d: clock one acknowledge slot at level `d`; the level sampled goes to `DATA` (R85). -/
def execAckbit (d : Level) (s : State) : Host.Outcome State Fault Refusal :=
  issue .held (ackSlot d .ackToData) s

end Sys2Proof.Machine
end

