-- ==== Sys2Proof/Machine/DisplayController.lean ====
section
/-! DEFINITION. The shared procedures of the Display Controller and its six commands (42_display_controller.md R86 to
R98). The operand registers are read at acceptance, whose values a command sees (20_memory.md R50;
70_reset_and_hazards.md R124; assumption log 4). -/

namespace Sys2Proof.Machine

/-- `Conn(a7, rw)` (R87). -/
def conn (a7 : Addr7) (rw : Direction) : List Micro := startCond ++ [.wr (addressByte a7 rw)]

/-- `Window(r, c)` (R88). -/
def window (p : Config.Params) (r : Row) (c : Col) : List Micro :=
  conn p.displayAddr .write ++ [.wr p.ctrlCmd] ++
  [.wr p.cmdSetPage, .wr (rowByte r), .wr lastRowByte] ++
  [.wr p.cmdSetCol, .wr (colByte c), .wr lastColByte] ++ stopCond

/-- `Advance()` as the register writes it makes from the cursor (r, c) (R98). -/
def advanceWrites (r : Row) (c : Col) : List Micro :=
  if Config.wrapCol ≤ advancedColumn c then [.setCol 0, .setRow (r + 1)]
  else [.setCol (BitVec.ofNat 7 (advancedColumn c))]

/-- CONNECT r: a start condition and the address byte `{DATA[6:0], r}` (R91). -/
def execConnect (r : Direction) (s : State) : Host.Outcome State Fault Refusal :=
  issue .idle (conn (deviceAddress s.data) r) s

/-- CTRLBYTE k: the display's control byte (R92). -/
def execCtrlbyte (k : StreamKind) (s : State) : Host.Outcome State Fault Refusal :=
  issue .held [.wr (controlByte s.params k)] s

/-- INIT: the whole configuration script in one transaction (R93). -/
def execInit (s : State) : Host.Outcome State Fault Refusal :=
  issue .idle (conn s.params.displayAddr .write ++ [.wr s.params.ctrlCmd] ++
    (scriptBytes s.params.initScript).map .wr ++ stopCond) s

/-- SETWIN: the display's window from (`WROW.ROW`, `WCOL.COL`) on (R95). -/
def execSetwin (s : State) : Host.Outcome State Fault Refusal :=
  issue .idle (window s.params s.wrow s.wcol) s

/-- CLEAR: blank the whole display and home the cursor (R96). -/
def execClear (s : State) : Host.Outcome State Fault Refusal :=
  issue .idle (window s.params 0 0 ++ conn s.params.displayAddr .write ++ [.wr s.params.ctrlData] ++
    [.zeros Config.clearBytes] ++ stopCond ++ [.setRow 0, .setCol 0]) s

/-- GLYPH: draw the six bytes of the glyph buffer at the cursor and advance it (R97). -/
def execGlyph (s : State) : Host.Outcome State Fault Refusal :=
  issue .idle (window s.params s.curRow s.curCol ++ conn s.params.displayAddr .write ++
    [.wr s.params.ctrlData] ++ (glyphBytes s).map .wr ++ stopCond ++ [.advance]) s

end Sys2Proof.Machine
end

