-- ==== Sys2Proof/Machine/Dispatch.lean ====
section
/-! DEFINITION. The dispatch of a legal command word to its meaning, one arm for each constructor. -/

namespace Sys2Proof.Machine

-- The host's write of the instruction's word to CMD: acceptance, rejection, or a lost write (40_command_issue.md R66).
def exec (i : Instr) (s : State) : Host.Outcome State Fault Refusal :=
  match i with
  | .start => Sys2Proof.Machine.execStart s
  | .stop => Sys2Proof.Machine.execStop s
  | .wrbyte => Sys2Proof.Machine.execWrbyte s
  | .rdbyte a => Sys2Proof.Machine.execRdbyte a s
  | .ackbit d => Sys2Proof.Machine.execAckbit d s
  | .connect r => Sys2Proof.Machine.execConnect r s
  | .ctrlbyte k => Sys2Proof.Machine.execCtrlbyte k s
  | .init => Sys2Proof.Machine.execInit s
  | .setwin => Sys2Proof.Machine.execSetwin s
  | .clear => Sys2Proof.Machine.execClear s
  | .glyph => Sys2Proof.Machine.execGlyph s

end Sys2Proof.Machine
end

