-- ==== Sys2Proof/Machine/Engine.lean ====
section
/-! DEFINITION. One step of the engine: the next step of the running command's pseudocode
(40_command_issue.md R68 to R70; 41_bus_engine.md R73 to R78). -/

namespace Sys2Proof.Machine

/-- `WaitSCLHigh()`: one read of SCL; the command goes on when it reads 1 and stays where it is when it reads 0
(R70, R73; assumption log 7). -/
def stepWaitScl (k : List Micro) (s : State) : State :=
  if s.lineScl then (State.emit .wait s.afterSclDraw).goOn k else s.afterSclDraw

/-- `SampleSDA()` and what `ClockBit` does with the bit it returns (00_scope.md R14; R74). -/
def stepSample (use : SlotUse) (k : List Micro) (s : State) : State :=
  (State.emit (.sample s.lineSda) s.afterSdaDraw).goOn (afterSample s.lineSda use ++ k)

/-- The loop of `ShiftOut`: another slot with `_sr[7]` while `_bitcnt > 0` (R75). -/
def stepOutLoop (k : List Micro) (s : State) : State :=
  if s.bitcnt = 0 then s.goOn k else s.goOn (clockBit s.sr.msb .shift ++ .outLoop :: k)

/-- The loop of `ShiftIn`: another released slot while `_bitcnt > 0` (R76). -/
def stepInLoop (k : List Micro) (s : State) : State :=
  if s.bitcnt = 0 then s.goOn k else s.goOn (clockBit true .shift ++ .inLoop :: k)

/-- `repeat n times: Wr(0x00)` (42_display_controller.md R96). -/
def stepZeros (n : Nat) (k : List Micro) (s : State) : State :=
  match n with
  | 0     => s.goOn k
  | n + 1 => s.goOn (.wr 0x00 :: .zeros n :: k)

/-- One step `m` of the pseudocode, with `k` after it. -/
def runMicro (m : Micro) (k : List Micro) (s : State) : State :=
  match m with
  | .setScl v      => (s.setScl v).goOn k
  | .setSda v      => (s.setSda v).goOn k
  | .hold _        => s.goOn k
  | .waitScl       => stepWaitScl k s
  | .sample use    => stepSample use k s
  | .loadShift b   => State.goOn k { s with sr := b }
  | .loadCount n   => State.goOn k { s with bitcnt := n }
  | .outLoop       => stepOutLoop k s
  | .inLoop        => stepInLoop k s
  | .shift b       => State.goOn k { s with sr := shiftIn s.sr b }
  | .countDown     => State.goOn k { s with bitcnt := s.bitcnt - 1 }
  | .recordAck b   => State.goOn k { s with ack := ackOf b }
  | .abortIf b     => if b then s.abort .nack else s.goOn k
  | .countByte     => State.goOn k { s with xcnt := s.xcnt + 1 }
  | .setBus b      => State.goOn k { s with bus := b }
  | .storeData v   => State.goOn k { s with data := v }
  | .storeShift    => State.goOn k { s with data := s.sr }
  | .wr b          => s.goOn (wrBody b ++ k)
  | .zeros n       => stepZeros n k s
  | .setRow r      => State.goOn k { s with curRow := r }
  | .setCol c      => State.goOn k { s with curCol := c }
  | .advance       => s.goOn (advanceWrites s.curRow s.curCol ++ k)
  | .setCode c     => State.goOn k { s with code := c }

/-- The engine's step: nothing while no command runs; after the last step of the pseudocode the command ends (R69). -/
def engineStep (s : State) : State :=
  match s.seq with
  | none          => s
  | some []       => s.endCommand
  | some (m :: k) => runMicro m k s

end Sys2Proof.Machine
end

