-- ==== Sys2Proof/Machine/HostAccess.lean ====
section
/-! DEFINITION. The host's accesses and the other inputs (40_command_issue.md R63 to R66; 20_memory.md R42, R47;
70_reset_and_hazards.md R118, R131). -/

namespace Sys2Proof.Machine

/-- The host reads a register and gets its value; the block's state is unchanged (R49, R63). -/
def hostRead (off : Offset) (s : State) : State :=
  { s with reads := { off := off, value := s.readReg off } :: s.reads }

/-- `Issue(w)` while not busy: an illegal word is rejected with `ILLEGAL`, a legal one is its instruction (R66). -/
def issueWord (w : Byte) (s : State) : Host.Outcome State Fault Refusal :=
  match decode w with
  | .ok i    => exec i s
  | .error _ => .next (s.reject .illegal)

/-- `WriteReg(off, v)` while not busy (R64). -/
def writeIdle (off : Offset) (v : Byte) (s : State) : Host.Outcome State Fault Refusal :=
  match Reg.ofOffset off with
  | .cmd    => issueWord v s
  | .data   => .next { s with data := v }
  | .status => .next s
  | .err    => .next { s with ovr := ovrAfterWrite s.ovr v }
  | .xcntLo => .next s
  | .xcntHi => .next s
  | .curRow => .next s
  | .curCol => .next s
  | .wrow   => .next { s with wrow := v.setWidth 3 }
  | .wcol   => .next { s with wcol := v.setWidth 7 }
  | .gbuf0  => .next { s with gbuf0 := v }
  | .gbuf1  => .next { s with gbuf1 := v }
  | .gbuf2  => .next { s with gbuf2 := v }
  | .gbuf3  => .next { s with gbuf3 := v }
  | .gbuf4  => .next { s with gbuf4 := v }
  | .gbuf5  => .next { s with gbuf5 := v }

/-- `WriteReg(off, v)`: while busy the write is lost (R64, R65). -/
def writeReg (off : Offset) (v : Byte) (s : State) : Host.Outcome State Fault Refusal :=
  if s.busy then .next s.overrun else writeIdle off v s

/-- `MemRead(addr, bits / 8)`: the window takes 8-bit accesses at its own addresses (20_memory.md R42, R47). -/
def memRead (addr bits : Nat) (s : State) : Host.Outcome State Fault Refusal :=
  if bits = 8 then
    match windowOffset s.params addr with
    | some off => .next (hostRead off s)
    | none     => .refused (.outsideWindow addr)
  else
    match s.params.hostWideAccess with
    | .refuse => .refused (.wideAccess bits)

/-- `MemWrite(addr, bits / 8, v)` (R42, R47). -/
def memWrite (addr bits v : Nat) (s : State) : Host.Outcome State Fault Refusal :=
  if bits = 8 then
    match windowOffset s.params addr with
    | some off => writeReg off (BitVec.ofNat 8 v) s
    | none     => .refused (.outsideWindow addr)
  else
    match s.params.hostWideAccess with
    | .refuse => .refused (.wideAccess bits)

/-- One move of the schedule; `s` has the moves after it. The host's `wait` stays in front while `BUSY` is 1, and the
engine runs meanwhile (30_encoding.md R61). -/
def performInput (m : Input) (s : State) : Host.Outcome State Fault Refusal :=
  match m with
  | .engine               => .next (engineStep s)
  | .read off             => .next (hostRead off s)
  | .write off v          => writeReg off v s
  | .wait                 => if s.busy then .next { engineStep s with inputs := .wait :: s.inputs } else .next s
  | .memRead addr bits    => memRead addr bits s
  | .memWrite addr bits v => memWrite addr bits v s
  | .reset                => .next s.resetBlock

/-- The next move: the schedule's next input, and when it is used up the engine alone (assumption log 3). -/
def nextMove (s : State) : Host.Outcome State Fault Refusal :=
  match s.inputs with
  | []        => .next (engineStep s)
  | m :: rest => performInput m { s with inputs := rest }

end Sys2Proof.Machine
end

