-- ==== Sys2Proof/Machine/Step.lean ====
section
/-! DEFINITION. The step, and where the host's next command word stands. -/

namespace Sys2Proof.Machine

/-- One step of the block with its host and environment. -/
def step (s : State) : Host.Outcome State Fault Refusal := nextMove s

/-- `s` with the command word `w` written to `CMD` (offset 0x0) as the very next move. The block fetches nothing: the
host's write is what brings it an instruction (10_state.md R36). A write reaches the decoder only while `BUSY` is 0, so
no command runs in the result (assumption log 8). -/
def State.withFetchWord (s : State) (nbits w : Nat) : State :=
  { s with inputs := .write 0x0 (tableWordByte nbits w) :: s.inputs, seq := none }

end Sys2Proof.Machine
end

