-- ==== Sys2Proof/Machine/Assembler.lean ====
section
/-! DEFINITION. The assembler syntax of host programs and its pseudo-instructions, as the moves of the host they stand
for (30_encoding.md R61, R62). -/

namespace Sys2Proof.Machine

/-- A statement of a host program (R61). A command mnemonic with its operand is `cmd`. -/
inductive Stmt where
  | wr (r : Reg) (v : Byte)
  | rd (r : Reg)
  | cmd (i : Instr)
  | wait
deriving DecidableEq, Repr

/-- The host's move for a statement (R61). -/
def Stmt.input : Stmt → Input
  | .wr r v => .write r.offset v
  | .rd r   => .read r.offset
  | .cmd i  => .write Reg.cmd.offset (encode i)
  | .wait   => .wait

/-- The moves of a program. -/
def assemble (p : List Stmt) : List Input := p.map Stmt.input

/-- `do X` (R62). -/
def pseudoDo (i : Instr) : List Stmt := [.cmd i, .wait]

/-- `send b` (R62). -/
def pseudoSend (b : Byte) : List Stmt := [.wr .data b, .cmd .wrbyte, .wait]

/-- `open a7, w` and `open a7, r` (R62). -/
def pseudoOpen (a7 : Addr7) (r : Direction) : List Stmt := [.wr .data (a7.setWidth 8), .cmd (.connect r), .wait]

/-- `recv ack` (level 0) and `recv nack` (level 1) (R62). -/
def pseudoRecv (a : Level) : List Stmt := [.cmd (.rdbyte a), .wait, .rd .data]

/-- `close` (R62). -/
def pseudoClose : List Stmt := [.cmd .stop, .wait]

/-- `window r, c` (R62). -/
def pseudoWindow (r : Row) (c : Col) : List Stmt :=
  [.wr .wrow (rowByte r), .wr .wcol (colByte c), .cmd .setwin, .wait]

/-- `glyph b0, b1, b2, b3, b4, b5` (R62). -/
def pseudoGlyph (b0 b1 b2 b3 b4 b5 : Byte) : List Stmt :=
  [.wr .gbuf0 b0, .wr .gbuf1 b1, .wr .gbuf2 b2, .wr .gbuf3 b3, .wr .gbuf4 b4, .wr .gbuf5 b5, .cmd .glyph, .wait]

end Sys2Proof.Machine
end

