-- ==== Sys2Proof/Safety.lean ====
section
/-! DEFINITION. The terms claims use: when a command may be issued, how a run goes on, what a transaction looks like on
the lines, and the invariant of the block (40_command_issue.md R68, R69; 41_bus_engine.md R74 to R82;
10_state.md R30, R34; 70_reset_and_hazards.md R133). -/

namespace Sys2Proof.Machine

/-! ### Runs -/

/-- The machine goes from `s` to `f` in some number of steps. -/
def Runs (s f : State) : Prop := ∃ n, Host.Core.run Sys2Proof.core n s = .next f

/-- A host program's run has ended: the host has made its last move and no command runs (R133). -/
def State.ended (s : State) : Prop := s.inputs = [] ∧ s.busy = false

/-- At rest in IDLE, SCL released, with no move of the host still to come (R81's precondition). -/
def State.readyIdle (s : State) : Prop :=
  s.seq = none ∧ s.bus = .idle ∧ s.sclOut = true ∧ s.inputs = []

/-- At rest in HELD with SCL low and no move of the host still to come (R82's precondition). -/
def State.readyHeld (s : State) : Prop :=
  s.seq = none ∧ s.bus = .held ∧ s.sclOut = false ∧ s.inputs = []

/-! ### The host's accesses -/

/-- A register read or write of the host, by offset or 8 bits wide at an address of the window (20_memory.md R42). -/
def Input.isHostAccess (p : Config.Params) : Input → Bool
  | .read _           => true
  | .write _ _        => true
  | .memRead a b      => b == 8 && (windowOffset p a).isSome
  | .memWrite a b _   => b == 8 && (windowOffset p a).isSome
  | .engine           => false
  | .wait             => false
  | .reset            => false

/-- A register write of the host, by offset or by address. -/
def Input.isWrite : Input → Bool
  | .write _ _      => true
  | .memWrite _ _ _ => true
  | .engine         => false
  | .read _         => false
  | .wait           => false
  | .memRead _ _    => false
  | .reset          => false

/-! ### The environment's scripted levels -/

/-- The environment lets SCL go at least `n` times, after holding it low for any length of time before each. -/
def State.releases (s : State) (n : Nat) : Prop := n ≤ s.envScl.count true

/-- What is left of the environment's levels of SCL after a wait: those up to its first release are used up (R73). -/
def afterRelease : List Level → List Level
  | []          => []
  | true :: es  => es
  | false :: es => afterRelease es

/-- What is left of them after `n` waits. -/
def afterReleases (n : Nat) (es : List Level) : List Level := afterRelease^[n] es

/-- The environment's level of SDA is scripted for the next `n` bit slots. -/
def State.slots (s : State) (n : Nat) : Prop := n ≤ s.envSda.length

/-- The environment pulls SDA low in the acknowledge slot of the `j`-th byte from here, counting from 0. -/
def State.byteAcked (s : State) (j : Nat) : Prop := s.envSda[9 * j + 8]? = some false

/-- The environment leaves SDA high in the acknowledge slot of the `j`-th byte from here. -/
def State.byteNacked (s : State) (j : Nat) : Prop := s.envSda[9 * j + 8]? = some true

/-! ### What the lines show -/

/-- The events of `ClockBit(v)` where the environment lets SDA have level `e` (R74). -/
def slotEvents (v e : Level) : List LineEvent := [.sda v, .scl true, .wait, .sample (v && e), .scl false]

/-- The events of `Wr(b)`: eight slots, most significant bit first, and the released acknowledge slot (R75, R78). -/
def byteEvents (b : Byte) (env : List Level) : List LineEvent :=
  (List.range 8).flatMap (fun i => slotEvents (b.getMsbD i) (env.getD i true)) ++ slotEvents true (env.getD 8 true)

/-- The events of a start condition (R81). -/
def startEvents : List LineEvent := [.wait, .sda false, .scl false]

/-- The events of a stop condition (R82). -/
def stopEvents : List LineEvent := [.sda false, .scl true, .wait, .sda true]

/-- The events of bytes sent one after the other, nine bit slots each. -/
def bytesEvents : List Byte → List Level → List LineEvent
  | [], _        => []
  | b :: bs, env => byteEvents b env ++ bytesEvents bs (env.drop 9)

/-- The events of whole transactions, each a start condition, its bytes and a stop condition. -/
def transactionsEvents : List (List Byte) → List Level → List LineEvent
  | [], _        => []
  | t :: ts, env => startEvents ++ bytesEvents t env ++ stopEvents ++ transactionsEvents ts (env.drop (9 * t.length))

/-- The events of the first `n` bytes of the transactions, where the command ends at the last slot of the `n`-th:
the transaction that byte belongs to stays open (42_display_controller.md R90). -/
def cutEvents : List (List Byte) → Nat → List Level → List LineEvent
  | [], _, _        => []
  | t :: ts, n, env =>
    if n ≤ t.length then startEvents ++ bytesEvents (t.take n) env
    else startEvents ++ bytesEvents t env ++ stopEvents ++ cutEvents ts (n - t.length) (env.drop (9 * t.length))

/-- The waits for SCL in the first `n` bytes of the transactions, cut there as in `cutEvents`: one for each start and stop
condition and nine for each byte (R73). -/
def cutReleases : List (List Byte) → Nat → Nat
  | [], _      => 0
  | t :: ts, n => if n ≤ t.length then 9 * n + 1 else 9 * t.length + 2 + cutReleases ts (n - t.length)

/-- The whole line trace, oldest event first (00_scope.md R14). -/
def State.lineTrace (s : State) : List LineEvent := s.trace.reverse

/-- `s` after a display command whose `n` bytes, in the transactions `ts`, were all acknowledged: `XCNT` is `n`, the bus
is released, the environment's levels of the nine slots of each byte and of one wait for each slot and condition are used
up, and nothing else has changed but the hidden shift register, which is taken from `f` (42_display_controller.md R93, R95
to R97). -/
def State.succeeded (s : State) (ts : List (List Byte)) (n : Nat) (f : State) : State :=
  { s with
    seq := none, code := .ok, ack := true, xcnt := BitVec.ofNat 16 n, bus := .idle, sclOut := true, sdaOut := true
    sr := f.sr, bitcnt := 0, envScl := afterReleases (9 * n + 2 * ts.length) s.envScl, envSda := s.envSda.drop (9 * n)
    trace := (transactionsEvents ts s.envSda).reverse ++ s.trace }

/-- `s` after a command that sent bytes of the transactions `ts` and aborted at byte `j`: `j` bytes were acknowledged, the
transaction stays open, SCL is low and SDA released, and the environment's levels up to there are used up
(60_exceptions.md R107). -/
def State.abortedAt (s : State) (ts : List (List Byte)) (j : Nat) (f : State) : State :=
  { s with
    seq := none, code := .nack, ack := false, xcnt := BitVec.ofNat 16 j, bus := .held, sclOut := false, sdaOut := true
    sr := f.sr, bitcnt := 0, envScl := afterReleases (cutReleases ts (j + 1)) s.envScl
    envSda := s.envSda.drop (9 * (j + 1))
    trace := (cutEvents ts (j + 1) s.envSda).reverse ++ s.trace }

/-! ### What the spec's tables say -/

/-- The bus state a command requires at acceptance (30_encoding.md R60). -/
def requiredBus : Instr → BusState
  | .start      => .idle
  | .stop       => .held
  | .wrbyte     => .held
  | .rdbyte _   => .held
  | .ackbit _   => .held
  | .connect _  => .idle
  | .ctrlbyte _ => .held
  | .init       => .idle
  | .setwin     => .idle
  | .clear      => .idle
  | .glyph      => .idle

/-- The eight bytes of a window transaction (42_display_controller.md R88). -/
def windowBytes (p : Config.Params) (r : Row) (c : Col) : List Byte :=
  [p.displayAddr ++ 0#1, p.ctrlCmd, p.cmdSetPage, r.setWidth 8, 7, p.cmdSetCol, c.setWidth 8, 127]

/-- The cursor after one `Advance()`: six columns on, and at column 126 back to 0 with the next row modulo 8
(42_display_controller.md R98). -/
def nextCell (cur : Row × Col) : Row × Col :=
  if 126 ≤ cur.2.toNat + 6 then (BitVec.ofNat 3 ((cur.1.toNat + 1) % 8), 0)
  else (cur.1, BitVec.ofNat 7 (cur.2.toNat + 6))

/-- The cursor. -/
def State.cursor (s : State) : Row × Col := (s.curRow, s.curCol)

/-- The least time the holds of a piece of pseudocode add up to, in nanoseconds (70_reset_and_hazards.md R129). -/
def heldFor (p : Config.Params) : List Micro → Nat
  | []            => 0
  | .hold t :: ms => holdTime p t + heldFor p ms
  | _ :: ms       => heldFor p ms

/-! ### The invariant -/

/-- A column a glyph cell starts at: a multiple of 6 no greater than 120 (10_state.md R30). -/
def isCell (c : Col) : Bool := c.toNat % 6 == 0 && c.toNat ≤ 120

/-- What is known of the engine at a point of a command's pseudocode: its SCL driver, its SDA driver where known, the
bus state, whether `_bitcnt` is known to be above 0, and the value of `ERR.CODE`. -/
structure Lines where
  scl   : Level
  sda   : Option Level
  bus   : BusState
  count : Bool
  code  : ErrCode
deriving DecidableEq, Repr

/-- Between commands: in IDLE both lines are released, in HELD SCL is low (10_state.md R34). -/
def Lines.rest (a : Lines) : Bool :=
  match a.bus with
  | .idle => a.scl && a.sda == some true
  | .held => !a.scl

/-- The engine may set its SDA driver to `v`: SCL is low, or it is a start condition out of IDLE (SDA falls), or a stop
condition out of HELD (SDA rises) (41_bus_engine.md R80). -/
def Lines.mayDriveSda (a : Lines) (v : Level) : Bool :=
  match a.bus with
  | .idle => !a.scl || !v
  | .held => !a.scl || v

/-- What is known after a slot whose bit goes to `use`. -/
def Lines.afterSlot (a : Lines) : SlotUse → Lines
  | .shift         => { a with scl := false, count := false }
  | .ackOfSent     => { a with scl := false, count := false }
  | .ackOfReceived => { a with scl := false, count := false }
  | .ackToData     => { a with scl := false, count := false }

/-- A slot whose bit goes to `use` may be sampled. -/
def Lines.maySample (a : Lines) : SlotUse → Bool
  | .shift         => a.scl && a.count
  | .ackOfSent     => a.scl && a.bus == .held && a.sda == some true
  | .ackOfReceived => a.scl
  | .ackToData     => a.scl

/-- A byte may be sent: a transaction is open and SCL is low. -/
def Lines.maySend (a : Lines) : Bool := !a.scl && a.bus == .held

/-- The rest of a command's pseudocode keeps the rules of the lines and ends as a command may end: between commands the
bus state and the drivers agree (R34), SDA changes only where it may (R80), a wait follows a release of SCL (R73), a
byte goes out only inside a transaction, `_bitcnt` is at most 8 and never counts below 0 (10_state.md R35;
42_display_controller.md R99), the cursor stays on a cell (R30), and the code at the end is OK or NACK
(40_command_issue.md R69). -/
def disciplined : Lines → List Micro → Bool
  | a, []                 => a.rest && (a.code == .ok || a.code == .nack)
  | a, .setScl v :: k     => disciplined { a with scl := v } k
  | a, .setSda v :: k     => a.mayDriveSda v && disciplined { a with sda := some v } k
  | a, .hold _ :: k       => disciplined a k
  | a, .waitScl :: k      => a.scl && disciplined a k
  | a, .sample use :: k   => a.maySample use && disciplined (a.afterSlot use) k
  | a, .loadShift _ :: k  => disciplined a k
  | a, .loadCount n :: k  => decide (n.toNat ≤ 8) && disciplined { a with count := decide (n.toNat ≠ 0) } k
  | a, .outLoop :: k      => !a.scl && disciplined { a with sda := none, count := false } k
  | a, .inLoop :: k       => !a.scl && disciplined { a with sda := none, count := false } k
  | a, .shift _ :: k      => disciplined a k
  | a, .countDown :: k    => a.count && disciplined { a with count := false } k
  | a, .recordAck _ :: k  => disciplined a k
  | a, .abortIf _ :: k    => a.maySend && a.sda == some true && disciplined a k
  | a, .countByte :: k    => disciplined a k
  | a, .setBus b :: k     => ({ a with bus := b } : Lines).rest && disciplined { a with bus := b } k
  | a, .storeData _ :: k  => disciplined a k
  | a, .storeShift :: k   => disciplined a k
  | a, .wr _ :: k         => a.maySend && disciplined { a with sda := some true, count := false } k
  | a, .zeros _ :: k      => a.maySend && disciplined { a with sda := none, count := false } k
  | a, .setRow _ :: k     => disciplined a k
  | a, .setCol c :: k     => isCell c && disciplined a k
  | a, .advance :: k      => disciplined a k
  | a, .setCode c :: k    => disciplined { a with code := c } k

/-- What a state shows of the engine. -/
def State.lines (s : State) : Lines where
  scl   := s.sclOut
  sda   := some s.sdaOut
  bus   := s.bus
  count := decide (s.bitcnt.toNat ≠ 0)
  code  := s.code

/-- The rest of the running command is disciplined; with no command running the lines are at rest. -/
def State.inOrder (s : State) : Bool :=
  match s.seq with
  | none   => s.lines.rest
  | some k => disciplined s.lines k

/-- The invariant of the block: the cursor stands on a glyph cell, `_bitcnt` is at most 8, and the lines are in order. -/
structure State.Inv (s : State) : Prop where
  cell  : isCell s.curCol = true
  count : s.bitcnt.toNat ≤ 8
  order : s.inOrder = true

end Sys2Proof.Machine
end

