-- ==== Sys2Proof/Certificates/Slice0/Obligations.lean ====
section
/-! DEFINITION. The statements about the model, for the provers. Each docstring names the rule of spec/ it formalises. -/

open Sys2Proof Sys2Proof.Machine

/-! ### Encoding -/

/-- 30_encoding.md R58: the fifteen legal command words and the commands they select; every other word is illegal. -/
def Obligations.LegalWordsAreTheFifteenTabled : Prop :=
  decode 0x10 = .ok .start ∧ decode 0x20 = .ok .stop ∧ decode 0x30 = .ok .wrbyte ∧
  decode 0x40 = .ok (.rdbyte false) ∧ decode 0x41 = .ok (.rdbyte true) ∧
  decode 0x50 = .ok (.ackbit false) ∧ decode 0x51 = .ok (.ackbit true) ∧
  decode 0x80 = .ok (.connect .write) ∧ decode 0x81 = .ok (.connect .read) ∧
  decode 0x90 = .ok (.ctrlbyte .command) ∧ decode 0x91 = .ok (.ctrlbyte .data) ∧
  decode 0xA0 = .ok .init ∧ decode 0xB0 = .ok .setwin ∧ decode 0xC0 = .ok .clear ∧ decode 0xD0 = .ok .glyph ∧
  ∀ w : Byte, w ∉ ([0x10, 0x20, 0x30, 0x40, 0x41, 0x50, 0x51, 0x80, 0x81, 0x90, 0x91, 0xA0, 0xB0, 0xC0, 0xD0] : List Byte) →
    (decode w).toOption = none

/-- 30_encoding.md R55 to R58: a command word decodes to an instruction just when it is that instruction's encoding, so
no two words mean the same command and no operand bit is lost. -/
def Obligations.DecodeAndEncodeAgree : Prop :=
  ∀ (i : Instr) (w : Byte), decode w = .ok i ↔ w = encode i

/-- 30_encoding.md R59: which words are illegal, that there are 241 of them, and that an illegal word written to `CMD`
while not busy is rejected with `ILLEGAL` and has no other effect. -/
def Obligations.IllegalWordsAreRejectedWithoutEffect : Prop :=
  let illegal : Byte → Prop := fun w =>
    let op := w.extractLsb' 4 4
    op ∈ ([0x0, 0x6, 0x7, 0xE, 0xF] : List (BitVec 4)) ∨ w.extractLsb' 1 3 ≠ 0#3 ∨
    (op ∈ ([0x1, 0x2, 0x3, 0xA, 0xB, 0xC, 0xD] : List (BitVec 4)) ∧ w.getLsbD 0 = true)
  (∀ w, illegal w → ∀ s : State, s.seq = none →
    (decode w).toOption = none ∧ writeReg 0x0 w s = .next { s with code := .illegal, xcnt := 0 }) ∧
  (∀ w, ¬ illegal w → ∃ i, decode w = .ok i) ∧
  ((List.range 256).filter (fun n => (decode (BitVec.ofNat 8 n)).toOption.isNone)).length = 241

/-! ### Issuing a command -/

/-- 30_encoding.md R60: in the bus state it requires a command is accepted, in the other it is rejected with `STATE`
and nothing else happens. -/
def Obligations.CommandRequiresItsBusState : Prop :=
  ∀ (i : Instr) (s : State), s.seq = none →
    (s.bus = requiredBus i → ∃ t, exec i s = .next t ∧ t.busy = true ∧ t = { s with xcnt := 0, seq := t.seq }) ∧
    (s.bus ≠ requiredBus i → exec i s = .next { s with code := .state, xcnt := 0 })

/-- 40_command_issue.md R66 and 60_exceptions.md R106: a write to `CMD` checks, in this order, `BUSY`, legality and the
bus state, and reports the first that applies; otherwise the command is accepted with `XCNT` 0 and `BUSY` 1. -/
def Obligations.CmdWriteChecksBusyLegalityState : Prop :=
  ∀ (w : Byte) (s : State),
    (s.busy = true → writeReg 0x0 w s = .next { s with ovr := true }) ∧
    (s.busy = false → ∀ e, decode w = .error e → writeReg 0x0 w s = .next { s with code := .illegal, xcnt := 0 }) ∧
    (s.busy = false → ∀ i, decode w = .ok i → s.bus ≠ requiredBus i →
      writeReg 0x0 w s = .next { s with code := .state, xcnt := 0 }) ∧
    (s.busy = false → ∀ i, decode w = .ok i → s.bus = requiredBus i →
      writeReg 0x0 w s = exec i s ∧
      ∃ t, exec i s = .next t ∧ t.busy = true ∧ t = { s with xcnt := 0, seq := t.seq })

/-- 10_state.md R36, 40_command_issue.md R66: when the next move is the host's write of a legal word to `CMD` and no
command runs, the step is `exec` of the decoded instruction, with the move used up. That `withFetchWord` brings that
about is the model's choice (assumption log 8). -/
def Obligations.StepRunsTheDecodedInstruction : Prop :=
  (∀ (s : State) (w : Byte) (i : Instr) (rest : List Input), s.seq = none → s.inputs = .write 0x0 w :: rest →
    decode w = .ok i → step s = exec i { s with inputs := rest }) ∧
  (∀ (s : State) (w : Byte) (i : Instr), decode w = .ok i →
    step (s.withFetchWord 8 w.toNat) = exec i { s with seq := none })

/-- 40_command_issue.md R72, 60_exceptions.md R111, 20_memory.md R47: every command answers a next state in every
state, and a step never faults and refuses nothing but a host access of another width or outside the window. Three parts
of this are the model's choices and no rule's: that a command blocked in `WaitSCLHigh` answers a next state too
(assumption log 7, where R70 gives it no step), that a block with no move to come and no command running does (assumption
log 3), and the refusal outside the window (assumption log 12). -/
def Obligations.OnlyForeignAccessesAreRefused : Prop :=
  (∀ (i : Instr) (s : State), ∃ t, exec i s = .next t) ∧
  (∀ s : State, (∃ t, step s = .next t) ∨
    (∃ a b v, (s.inputs.head? = some (.memRead a b) ∨ s.inputs.head? = some (.memWrite a b v)) ∧
      ((b ≠ 8 ∧ step s = .refused (.wideAccess b)) ∨
       (b = 8 ∧ ¬ (s.params.regBase ≤ a ∧ a < s.params.regBase + 16) ∧ step s = .refused (.outsideWindow a)))))

/-! ### The host's accesses -/

/-- 40_command_issue.md R63: the value of every register, read at any time, busy or not, without changing the block. -/
def Obligations.ReadRegReturnsTheTabledValue : Prop :=
  ∀ s : State,
    s.readReg 0x0 = 0x00 ∧ s.readReg 0x1 = s.data ∧
    s.readReg 0x2 = 0#5 ++ BitVec.ofBool s.ack ++ BitVec.ofBool (s.bus == .held) ++ BitVec.ofBool s.seq.isSome ∧
    s.readReg 0x3 = BitVec.ofBool s.ovr ++ 0#4 ++
      (match s.code with | .ok => 0#3 | .nack => 1#3 | .illegal => 2#3 | .state => 3#3) ∧
    s.readReg 0x4 = s.xcnt.extractLsb' 0 8 ∧ s.readReg 0x5 = s.xcnt.extractLsb' 8 8 ∧
    s.readReg 0x6 = s.curRow.setWidth 8 ∧ s.readReg 0x7 = s.curCol.setWidth 8 ∧
    s.readReg 0x8 = s.wrow.setWidth 8 ∧ s.readReg 0x9 = s.wcol.setWidth 8 ∧
    s.readReg 0xA = s.gbuf0 ∧ s.readReg 0xB = s.gbuf1 ∧ s.readReg 0xC = s.gbuf2 ∧
    s.readReg 0xD = s.gbuf3 ∧ s.readReg 0xE = s.gbuf4 ∧ s.readReg 0xF = s.gbuf5 ∧
    ∀ (off : Offset) (rest : List Input), s.inputs = .read off :: rest →
      step s = .next { s with inputs := rest, reads := ⟨off, s.readReg off⟩ :: s.reads }

/-- 40_command_issue.md R64: the effect of a host write while not busy, register by register. -/
def Obligations.IdleWriteHasTheTabledEffect : Prop :=
  ∀ (s : State) (v : Byte), s.busy = false →
    writeReg 0x0 v s = issueWord v s ∧
    writeReg 0x1 v s = .next { s with data := v } ∧
    writeReg 0x2 v s = .next s ∧
    writeReg 0x3 v s = .next { s with ovr := if v.getLsbD 7 = true then false else s.ovr } ∧
    writeReg 0x4 v s = .next s ∧ writeReg 0x5 v s = .next s ∧ writeReg 0x6 v s = .next s ∧ writeReg 0x7 v s = .next s ∧
    writeReg 0x8 v s = .next { s with wrow := v.extractLsb' 0 3 } ∧
    writeReg 0x9 v s = .next { s with wcol := v.extractLsb' 0 7 } ∧
    writeReg 0xA v s = .next { s with gbuf0 := v } ∧ writeReg 0xB v s = .next { s with gbuf1 := v } ∧
    writeReg 0xC v s = .next { s with gbuf2 := v } ∧ writeReg 0xD v s = .next { s with gbuf3 := v } ∧
    writeReg 0xE v s = .next { s with gbuf4 := v } ∧ writeReg 0xF v s = .next { s with gbuf5 := v }

/-- 40_command_issue.md R65: a host write while busy, at any offset, is lost and sets `ERR.OVR`; nothing else changes. -/
def Obligations.BusyWriteIsLostAndSetsOverrun : Prop :=
  ∀ (s : State) (off : Offset) (v : Byte) (rest : List Input), s.busy = true → s.inputs = .write off v :: rest →
    step s = .next { s with inputs := rest, ovr := true }

/-- 10_state.md R27: `ERR.OVR` is set by every write while busy, cleared by a write to `ERR` with bit 7 = 1 while not
busy and left alone by one with bit 7 = 0; and once set it goes back to 0 at no other step but a reset. -/
def Obligations.OverrunFlagIsSticky : Prop :=
  (∀ (s : State) (off : Offset) (v : Byte), s.busy = true → writeReg off v s = .next { s with ovr := true }) ∧
  (∀ (s : State) (v : Byte), s.busy = false →
    (v.getLsbD 7 = true → writeReg 0x3 v s = .next { s with ovr := false }) ∧
    (v.getLsbD 7 = false → writeReg 0x3 v s = .next s)) ∧
  (∀ s t : State, step s = .next t → s.ovr = true → t.ovr = false →
    s.inputs.head? = some .reset ∨
    (s.busy = false ∧ ∃ v : Byte, v.getLsbD 7 = true ∧
      (s.inputs.head? = some (.write 0x3 v) ∨
       ∃ a n, s.inputs.head? = some (.memWrite a 8 n) ∧ a = s.params.regBase + 3 ∧ v = BitVec.ofNat 8 n)))

/-- 20_memory.md R47: an access of another width than 8 bits is refused, whatever its address. -/
def Obligations.WideAccessIsRefused : Prop :=
  ∀ (s : State) (a b v : Nat) (rest : List Input), b ≠ 8 →
    (s.inputs = .memRead a b :: rest → step s = .refused (.wideAccess b)) ∧
    (s.inputs = .memWrite a b v :: rest → step s = .refused (.wideAccess b))

/-- 20_memory.md R42: an 8-bit access at `REG_BASE + off` is the access to the register at `off`. -/
def Obligations.WindowAddressReachesItsRegister : Prop :=
  ∀ (s : State) (off : Offset) (v : Byte),
    performInput (.memRead (s.params.regBase + off.toNat) 8) s = performInput (.read off) s ∧
    performInput (.memWrite (s.params.regBase + off.toNat) 8 v.toNat) s = performInput (.write off v) s

/-! ### Reset -/

/-- 10_state.md R40: the value of every piece of state after reset. -/
def Obligations.ResetValuesAreAsTabled : Prop :=
  State.reset.data = 0x00 ∧ State.reset.readReg 0x2 = 0x00 ∧ State.reset.busy = false ∧ State.reset.held = false ∧
  State.reset.ack = false ∧ State.reset.readReg 0x3 = 0x00 ∧ State.reset.code = .ok ∧ State.reset.ovr = false ∧
  State.reset.xcnt = 0x0000 ∧ State.reset.curRow = 0 ∧ State.reset.curCol = 0 ∧ State.reset.wrow = 0 ∧
  State.reset.wcol = 0 ∧ State.reset.gbuf0 = 0x00 ∧ State.reset.gbuf1 = 0x00 ∧ State.reset.gbuf2 = 0x00 ∧
  State.reset.gbuf3 = 0x00 ∧ State.reset.gbuf4 = 0x00 ∧ State.reset.gbuf5 = 0x00 ∧ State.reset.sclOut = true ∧
  State.reset.sdaOut = true ∧ State.reset.bus = .idle ∧ State.reset.sr = 0x00 ∧ State.reset.bitcnt = 0 ∧
  State.reset.seq = none ∧ ∀ off : Offset, State.reset.readReg off = 0x00

/-- 70_reset_and_hazards.md R118, R119: a reset at any time, also while a command runs, puts every piece of the block's
state at its reset value at once. That the host's coming moves, the environment's levels and the parameters stay, and
that the line trace starts again, is the model's choice (assumption log 6). -/
def Obligations.ResetInputActsAtAnyTime : Prop :=
  ∀ (s : State) (rest : List Input), s.inputs = .reset :: rest →
    step s = .next { State.reset with
      params := s.params, reads := s.reads, inputs := rest, envScl := s.envScl, envSda := s.envSda, draws := s.draws }

/-! ### Invariants and whole-machine rules -/

/-- The invariant of the block holds after reset (10_state.md R30, R34, R35, R40). -/
def Obligations.ResetStateMeetsInvariant : Prop := State.reset.Inv

/-- The invariant of the block: the cursor on a glyph cell (10_state.md R30), `_bitcnt` at most 8 and never counted below
0 (R35, 42_display_controller.md R99), the drivers and the bus state in agreement between commands (R34), and the rest
of the running command disciplined on the lines (41_bus_engine.md R73, R80), is kept by every step. -/
def Obligations.EveryStepKeepsTheInvariant : Prop :=
  ∀ s t : State, s.Inv → step s = .next t → t.Inv

/-- 10_state.md R30, R34: between commands, in a state that meets the invariant, the row is below 8, the column is a
multiple of 6 no greater than 120, IDLE has both lines released and HELD has SCL low. -/
def Obligations.BetweenCommandsCursorAndLinesAreInBounds : Prop :=
  ∀ s : State, s.Inv → s.busy = false →
    s.curRow.toNat ≤ 7 ∧ s.curCol.toNat % 6 = 0 ∧ s.curCol.toNat ≤ 120 ∧ s.curCol.toNat / 6 ≤ 20 ∧
    (s.bus = .idle → s.sclOut = true ∧ s.sdaOut = true) ∧ (s.bus = .held → s.sclOut = false)

/-- 41_bus_engine.md R80: while SCL is released the engine changes its SDA driver only to make a start condition out of
IDLE (SDA falls) or a stop condition out of HELD (SDA rises). -/
def Obligations.SdaMovesUnderHighSclOnlyAsCondition : Prop :=
  ∀ s t : State, s.Inv → step s = .next t → s.inputs.head? ≠ some .reset → s.sclOut = true → t.sdaOut ≠ s.sdaOut →
    (s.bus = .idle ∧ t.sdaOut = false) ∨ (s.bus = .held ∧ t.sdaOut = true)

/-- 40_command_issue.md R69, 60_exceptions.md R102: the step at which `BUSY` falls changes nothing else of the block, and
the outcome it leaves is OK or NACK. -/
def Obligations.CommandEndsWithOkOrNack : Prop :=
  ∀ s t : State, s.Inv → step s = .next t → s.inputs.head? ≠ some .reset → s.busy = true → t.busy = false →
    t = { s with seq := none, inputs := t.inputs } ∧ (t.code = .ok ∨ t.code = .nack)

/-- 20_memory.md R53, 10_state.md R38: no operation of the block, the host or reset writes a parameter, `INIT_SCRIPT`
among them. -/
def Obligations.ParametersAreNeverWritten : Prop :=
  ∀ s t : State, step s = .next t → t.params = s.params

/-- 10_state.md R22, R25, R29, R31, R32, R39: whatever the environment does, at every point of a command's run the
registers it may not write keep their values: `DATA` in every command but RDBYTE and ACKBIT, the cursor in every command
but CLEAR and GLYPH, `STATUS.ACK` in START and STOP, and `ERR.OVR`, `WROW`, `WCOL` and the glyph buffer in all. -/
def Obligations.RunOfACommandKeepsForeignRegisters : Prop :=
  ∀ (i : Instr) (s t f : State) (n : Nat), s.seq = none → s.inputs = [] → exec i s = .next t →
    Host.Core.run Sys2Proof.core n t = .next f →
    f.ovr = s.ovr ∧ f.wrow = s.wrow ∧ f.wcol = s.wcol ∧ f.gbuf0 = s.gbuf0 ∧ f.gbuf1 = s.gbuf1 ∧ f.gbuf2 = s.gbuf2 ∧
    f.gbuf3 = s.gbuf3 ∧ f.gbuf4 = s.gbuf4 ∧ f.gbuf5 = s.gbuf5 ∧
    ((∀ a, i ≠ .rdbyte a) → (∀ d, i ≠ .ackbit d) → f.data = s.data) ∧
    (i ≠ .clear → i ≠ .glyph → f.cursor = s.cursor) ∧
    (i = .start ∨ i = .stop → f.ack = s.ack)

/-- 40_command_issue.md R65, R68, 20_memory.md R42, R49, R50: the host's reads and writes, by offset or by address, between
the engine's steps of a command that still runs do not disturb it: the block gets to the state of the undisturbed run, but
for `ERR.OVR`, which is set if the host wrote. The schedule of moves is the model's form of the interleaving (assumption log
3). Not spoken of: a `wait`, which makes no move of its own while the command runs, a reset, which ends the command, and a
schedule that goes on after the command's end, whose writes are no longer lost. -/
def Obligations.HostAccessesDoNotDisturbARunningCommand : Prop :=
  ∀ (s q : State),
    (∀ m ∈ s.inputs, m = .engine ∨ m.isHostAccess s.params = true) →
    Host.Core.run Sys2Proof.core (s.inputs.count .engine) { s with inputs := [] } = .next q → q.busy = true →
    ∃ f, Host.Core.run Sys2Proof.core s.inputs.length s = .next f ∧
      f = { q with ovr := f.ovr, reads := f.reads } ∧
      (f.ovr = true ↔ s.ovr = true ∨ ∃ m ∈ s.inputs, m.isWrite = true)

/-- 70_reset_and_hazards.md R133: when the host has made its last move and no command runs, the run is over: nothing
changes any more (a step then leaves the state as it is, assumption log 3). -/
def Obligations.EndedRunStaysAsItIs : Prop :=
  ∀ (s : State) (n : Nat), s.ended → Host.Core.run Sys2Proof.core n s = .next s

/-! ### The lines -/

/-- 00_scope.md R15: a sample of SDA is the engine's driver AND the environment's level, so that a line the engine
drives low reads 0 whatever the environment does. -/
def Obligations.SampleIsTheWiredAnd : Prop :=
  ∀ (s : State) (use : SlotUse) (k : List Micro), s.seq = some (.sample use :: k) → s.inputs = [] →
    (∀ (e : Level) (es : List Level), s.envSda = e :: es →
      step s = .next { s with
        envSda := es, trace := .sample (s.sdaOut && e) :: s.trace
        seq := some (afterSample (s.sdaOut && e) use ++ k) }) ∧
    (s.sdaOut = false → ∃ t, step s = .next t ∧ t.trace = .sample false :: s.trace ∧
      t.seq = some (afterSample false use ++ k))

/-- 40_command_issue.md R70, 41_bus_engine.md R73: a command in `WaitSCLHigh` stays where it is for as long as the
environment holds SCL low, whatever the length, with nothing changed; at the first read of 1 it goes on. That a read of
0 is a step which uses up only the environment's level is the model's choice (assumption log 7). -/
def Obligations.CommandBlocksWhileSclIsHeldLow : Prop :=
  ∀ (s : State) (k : List Micro) (n : Nat) (rest : List Level), s.seq = some (.waitScl :: k) → s.inputs = [] →
    s.envScl = List.replicate n false ++ rest →
    Host.Core.run Sys2Proof.core n s = .next { s with envScl := rest } ∧
    (s.sclOut = true → ∀ es, rest = true :: es →
      Host.Core.run Sys2Proof.core (n + 1) s =
        .next { s with envScl := es, trace := .wait :: s.trace, seq := some k })

/-- 41_bus_engine.md R74: a bit slot puts `v` on SDA, raises SCL, waits for it, samples SDA once and lowers SCL, and
returns the sample. -/
def Obligations.ClockBitMakesItsFiveEvents : Prop :=
  ∀ (s : State) (v e : Level) (es : List Level) (use : SlotUse) (k : List Micro),
    s.seq = some (clockBit v use ++ k) → s.inputs = [] → s.envSda = e :: es → s.releases 1 →
    ∃ f, Runs s f ∧ f = { s with
      sdaOut := v, sclOut := false, envScl := afterReleases 1 s.envScl, envSda := es, seq := some (slotResult (v && e) use ++ k)
      trace := [.scl false, .sample (v && e), .wait, .scl true, .sda v] ++ s.trace }

/-- 00_scope.md R16, 41_bus_engine.md R78, 60_exceptions.md R107: a NACK ends the command at once, whatever was still to
come: no line event and no register write but `ERR.CODE` follows, and the transaction is left as it is. -/
def Obligations.NackAbortsTheRestOfTheCommand : Prop :=
  ∀ (s : State) (k : List Micro), s.seq = some (.abortIf true :: k) → s.inputs = [] →
    Runs s { s with seq := none, code := .nack }

/-- 70_reset_and_hazards.md R129: the holds of a bit slot add up to `T_LOW + T_HIGH`, those of START to `T_SU + T_HIGH`
and those of STOP to `2 T_LOW + T_SU`. -/
def Obligations.HoldsOfSlotAndConditionsAddUp : Prop :=
  ∀ (p : Config.Params) (v b : Level) (use : SlotUse), p.tSu ≤ p.tHigh →
    heldFor p (clockBit v use ++ afterSample b use) = p.tLow + p.tHigh ∧
    heldFor p startCond = p.tSu + p.tHigh ∧ heldFor p stopCond = 2 * p.tLow + p.tSu

/-! ### The Bus Engine's commands -/

/-- 41_bus_engine.md R81, START: the start condition, its state and trace, however long the environment holds SCL low
before its release; rejected in HELD. -/
def Obligations.StartOpensATransaction : Prop :=
  decode 0x10 = .ok .start ∧
  (∀ s : State, s.readyIdle → s.releases 1 →
    ∃ t f, exec .start s = .next t ∧ Runs t f ∧ f = { s with
      code := .ok, xcnt := 0, bus := .held, sclOut := false, sdaOut := false, envScl := afterReleases 1 s.envScl
      trace := startEvents.reverse ++ s.trace }) ∧
  (∀ s : State, s.seq = none → s.bus = .held → exec .start s = .next { s with code := .state, xcnt := 0 })

/-- 41_bus_engine.md R81, 40_command_issue.md R70: while the environment holds SCL low START stays busy and has not touched
SDA, whatever the length. That each read of 0 is a step which uses up only the environment's level is the model's choice
(assumption log 7). -/
def Obligations.StartWaitsBeforeTouchingSda : Prop :=
  ∀ (s : State) (n : Nat) (rest : List Level), s.readyIdle → s.envScl = List.replicate n false ++ rest →
    ∃ t, exec .start s = .next t ∧ t.busy = true ∧ t.sdaOut = s.sdaOut ∧ t.trace = s.trace ∧
      Host.Core.run Sys2Proof.core n t = .next { t with envScl := rest }

/-- 41_bus_engine.md R82, STOP: the stop condition, both lines released, `_bus` IDLE; rejected in IDLE. -/
def Obligations.StopReleasesTheBus : Prop :=
  decode 0x20 = .ok .stop ∧
  (∀ s : State, s.readyHeld → s.releases 1 →
    ∃ t f, exec .stop s = .next t ∧ Runs t f ∧ f = { s with
      code := .ok, xcnt := 0, bus := .idle, sclOut := true, sdaOut := true, envScl := afterReleases 1 s.envScl
      trace := stopEvents.reverse ++ s.trace }) ∧
  (∀ s : State, s.seq = none → s.bus = .idle → exec .stop s = .next { s with code := .state, xcnt := 0 })

/-- 41_bus_engine.md R83, WRBYTE: the byte in `DATA` and its acknowledge slot; OK with `XCNT` 1, or NACK with `XCNT` 0;
rejected in IDLE. -/
def Obligations.WrbyteSendsData : Prop :=
  decode 0x30 = .ok .wrbyte ∧
  (∀ s : State, s.readyHeld → s.byteAcked 0 → s.releases 9 →
    ∃ t f, exec .wrbyte s = .next t ∧ Runs t f ∧ f = { s with
      ack := true, code := .ok, xcnt := 1, sdaOut := true, sr := f.sr, bitcnt := 0
      envScl := afterReleases 9 s.envScl, envSda := s.envSda.drop 9, trace := (byteEvents s.data s.envSda).reverse ++ s.trace }) ∧
  (∀ s : State, s.readyHeld → s.byteNacked 0 → s.releases 9 →
    ∃ t f, exec .wrbyte s = .next t ∧ Runs t f ∧ f = { s with
      ack := false, code := .nack, xcnt := 0, sdaOut := true, sr := f.sr, bitcnt := 0
      envScl := afterReleases 9 s.envScl, envSda := s.envSda.drop 9, trace := (byteEvents s.data s.envSda).reverse ++ s.trace }) ∧
  (∀ s : State, s.seq = none → s.bus = .idle → exec .wrbyte s = .next { s with code := .state, xcnt := 0 })

/-- 41_bus_engine.md R84, RDBYTE a: the byte received, first sample in bit 7, goes to `DATA`; `STATUS.ACK` is 1 if the slot
driven at `a` sampled low; never an abort; rejected in IDLE. -/
def Obligations.RdbyteReceivesIntoData : Prop :=
  decode 0x40 = .ok (.rdbyte false) ∧ decode 0x41 = .ok (.rdbyte true) ∧
  (∀ (s : State) (a : Level), s.readyHeld → s.slots 9 → s.releases 9 →
    ∃ t f, exec (.rdbyte a) s = .next t ∧ Runs t f ∧ (∀ i < 8, f.data.getMsbD i = s.envSda.getD i true) ∧
      f = { s with
        data := f.data, ack := !(a && s.envSda.getD 8 true), code := .ok, xcnt := 0, sdaOut := a
        sr := f.sr, bitcnt := 0, envScl := afterReleases 9 s.envScl, envSda := s.envSda.drop 9
        trace := ((s.envSda.take 8).flatMap (slotEvents true) ++ slotEvents a (s.envSda.getD 8 true)).reverse ++ s.trace }) ∧
  (∀ (s : State) (a : Level), s.seq = none → s.bus = .idle →
    exec (.rdbyte a) s = .next { s with code := .state, xcnt := 0 })

/-- 41_bus_engine.md R85, ACKBIT d: one slot at level `d`; `DATA` is the level sampled, `STATUS.ACK` its inverse; never an
abort; rejected in IDLE. -/
def Obligations.AckbitRecordsTheSlot : Prop :=
  decode 0x50 = .ok (.ackbit false) ∧ decode 0x51 = .ok (.ackbit true) ∧
  (∀ (s : State) (d e : Level) (es : List Level), s.readyHeld → s.envSda = e :: es → s.releases 1 →
    ∃ t f, exec (.ackbit d) s = .next t ∧ Runs t f ∧ f = { s with
      data := if (d && e) = true then 0x01 else 0x00, ack := !(d && e), code := .ok, xcnt := 0, sdaOut := d
      bitcnt := 0, envScl := afterReleases 1 s.envScl, envSda := es, trace := (slotEvents d e).reverse ++ s.trace }) ∧
  (∀ (s : State) (d : Level), s.seq = none → s.bus = .idle →
    exec (.ackbit d) s = .next { s with code := .state, xcnt := 0 })

/-! ### The Display Controller's commands -/

/-- 42_display_controller.md R91, CONNECT r: a start condition and the address byte `{DATA[6:0], r}`; `_bus` is HELD
whether it is acknowledged or not; rejected in HELD. -/
def Obligations.ConnectSendsTheAddress : Prop :=
  let address : State → Direction → Byte := fun s r =>
    s.data.extractLsb' 0 7 ++ (match r with | .write => 0#1 | .read => 1#1)
  decode 0x80 = .ok (.connect .write) ∧ decode 0x81 = .ok (.connect .read) ∧
  (∀ (s : State) (r : Direction), s.readyIdle → s.byteAcked 0 → s.releases 10 →
    ∃ t f, exec (.connect r) s = .next t ∧ Runs t f ∧ f = { s with
      ack := true, code := .ok, xcnt := 1, bus := .held, sclOut := false, sdaOut := true, sr := f.sr, bitcnt := 0
      envScl := afterReleases 10 s.envScl, envSda := s.envSda.drop 9
      trace := (startEvents ++ byteEvents (address s r) s.envSda).reverse ++ s.trace }) ∧
  (∀ (s : State) (r : Direction), s.readyIdle → s.byteNacked 0 → s.releases 10 →
    ∃ t f, exec (.connect r) s = .next t ∧ Runs t f ∧ f = s.abortedAt [[address s r]] 0 f) ∧
  (∀ (s : State) (r : Direction), s.seq = none → s.bus = .held →
    exec (.connect r) s = .next { s with code := .state, xcnt := 0 })

/-- 42_display_controller.md R92, CTRLBYTE k: `CTRL_CMD` for k = 0, `CTRL_DATA` for k = 1; rejected in IDLE. -/
def Obligations.CtrlbyteSendsTheControlByte : Prop :=
  let control : State → StreamKind → Byte := fun s k =>
    match k with | .command => s.params.ctrlCmd | .data => s.params.ctrlData
  decode 0x90 = .ok (.ctrlbyte .command) ∧ decode 0x91 = .ok (.ctrlbyte .data) ∧
  (∀ (s : State) (k : StreamKind), s.readyHeld → s.byteAcked 0 → s.releases 9 →
    ∃ t f, exec (.ctrlbyte k) s = .next t ∧ Runs t f ∧ f = { s with
      ack := true, code := .ok, xcnt := 1, sdaOut := true, sr := f.sr, bitcnt := 0
      envScl := afterReleases 9 s.envScl, envSda := s.envSda.drop 9
      trace := (byteEvents (control s k) s.envSda).reverse ++ s.trace }) ∧
  (∀ (s : State) (k : StreamKind), s.readyHeld → s.byteNacked 0 → s.releases 9 →
    ∃ t f, exec (.ctrlbyte k) s = .next t ∧ Runs t f ∧ f = { s with
      ack := false, code := .nack, xcnt := 0, sdaOut := true, sr := f.sr, bitcnt := 0
      envScl := afterReleases 9 s.envScl, envSda := s.envSda.drop 9
      trace := (byteEvents (control s k) s.envSda).reverse ++ s.trace }) ∧
  (∀ (s : State) (k : StreamKind), s.seq = none → s.bus = .idle →
    exec (.ctrlbyte k) s = .next { s with code := .state, xcnt := 0 })

/-- 42_display_controller.md R93, INIT: the address byte, the control byte and every script byte in one transaction, then a
stop condition and `XCNT` = 2 + `N_INIT`; a NACK at byte j aborts with `XCNT` = j and sends no later byte; rejected in
HELD. -/
def Obligations.InitSendsTheScript : Prop :=
  let bytes : State → List Byte := fun s =>
    (s.params.displayAddr ++ 0#1) :: s.params.ctrlCmd :: scriptBytes s.params.initScript
  decode 0xA0 = .ok .init ∧
  (∀ s : State, s.readyIdle → (∀ j < (bytes s).length, s.byteAcked j) → s.releases (9 * (bytes s).length + 2) →
    ∃ t f, exec .init s = .next t ∧ Runs t f ∧
      f = s.succeeded [bytes s] (2 + (scriptBytes s.params.initScript).length) f) ∧
  (∀ (s : State) (j : Nat), s.readyIdle → j < (bytes s).length → (∀ i < j, s.byteAcked i) → s.byteNacked j →
    s.releases (9 * (j + 1) + 1) →
    ∃ t f, exec .init s = .next t ∧ Runs t f ∧ f = s.abortedAt [bytes s] j f) ∧
  (∀ s : State, s.seq = none → s.bus = .held → exec .init s = .next { s with code := .state, xcnt := 0 })

/-- 42_display_controller.md R95, SETWIN: the window transaction for (`WROW.ROW`, `WCOL.COL`) and `XCNT` 8, the cursor
unchanged; a NACK at byte j aborts with `XCNT` = j; rejected in HELD. -/
def Obligations.SetwinSendsTheWindow : Prop :=
  decode 0xB0 = .ok .setwin ∧
  (∀ s : State, s.readyIdle → (∀ j < 8, s.byteAcked j) → s.releases 74 →
    ∃ t f, exec .setwin s = .next t ∧ Runs t f ∧ f = s.succeeded [windowBytes s.params s.wrow s.wcol] 8 f) ∧
  (∀ (s : State) (j : Nat), s.readyIdle → j < 8 → (∀ i < j, s.byteAcked i) → s.byteNacked j →
    s.releases (9 * (j + 1) + 1) →
    ∃ t f, exec .setwin s = .next t ∧ Runs t f ∧ f = s.abortedAt [windowBytes s.params s.wrow s.wcol] j f) ∧
  (∀ s : State, s.seq = none → s.bus = .held → exec .setwin s = .next { s with code := .state, xcnt := 0 })

/-- 42_display_controller.md R96, CLEAR: the full window, then the data stream of 1024 zero bytes; `XCNT` 1034 and the
cursor at (0, 0); a NACK at byte j aborts with `XCNT` = j and leaves the cursor; rejected in HELD. -/
def Obligations.ClearBlanksTheDisplay : Prop :=
  let transactions : State → List (List Byte) := fun s =>
    [windowBytes s.params 0 0, (s.params.displayAddr ++ 0#1) :: s.params.ctrlData :: List.replicate 1024 0x00]
  decode 0xC0 = .ok .clear ∧
  (∀ s : State, s.readyIdle → (∀ j < 1034, s.byteAcked j) → s.releases 9310 →
    ∃ t f, exec .clear s = .next t ∧ Runs t f ∧
      f = { s.succeeded (transactions s) 1034 f with curRow := 0, curCol := 0 }) ∧
  (∀ (s : State) (j : Nat), s.readyIdle → j < 1034 → (∀ i < j, s.byteAcked i) → s.byteNacked j →
    s.releases (9 * (j + 1) + if j < 8 then 1 else 3) →
    ∃ t f, exec .clear s = .next t ∧ Runs t f ∧ f = s.abortedAt (transactions s) j f) ∧
  (∀ s : State, s.seq = none → s.bus = .held → exec .clear s = .next { s with code := .state, xcnt := 0 })

/-- 42_display_controller.md R97, GLYPH: the window at the cursor, then the data stream of the six glyph bytes; `XCNT` 16
and the cursor one cell on; a NACK at byte j aborts with `XCNT` = j and leaves the cursor; rejected in HELD. -/
def Obligations.GlyphDrawsAndAdvances : Prop :=
  let transactions : State → List (List Byte) := fun s =>
    [windowBytes s.params s.curRow s.curCol,
     [s.params.displayAddr ++ 0#1, s.params.ctrlData, s.gbuf0, s.gbuf1, s.gbuf2, s.gbuf3, s.gbuf4, s.gbuf5]]
  decode 0xD0 = .ok .glyph ∧
  (∀ s : State, s.readyIdle → (∀ j < 16, s.byteAcked j) → s.releases 148 →
    ∃ t f, exec .glyph s = .next t ∧ Runs t f ∧
      f = { s.succeeded (transactions s) 16 f with
        curRow := (nextCell s.cursor).1, curCol := (nextCell s.cursor).2 }) ∧
  (∀ (s : State) (j : Nat), s.readyIdle → j < 16 → (∀ i < j, s.byteAcked i) → s.byteNacked j →
    s.releases (9 * (j + 1) + if j < 8 then 1 else 3) →
    ∃ t f, exec .glyph s = .next t ∧ Runs t f ∧ f = s.abortedAt (transactions s) j f) ∧
  (∀ s : State, s.seq = none → s.bus = .held → exec .glyph s = .next { s with code := .state, xcnt := 0 })

/-- 42_display_controller.md R98: `Advance()` moves the cursor one cell with the wrap at column 126, for every cursor; the
corner cases; 21 advances from the start of a row lead to the next row, and 168 from any cell back to it. -/
def Obligations.AdvanceWrapsTheCursor : Prop :=
  (∀ (s : State) (k : List Micro), s.seq = some (.advance :: k) → s.inputs = [] →
    Runs s { s with curRow := (nextCell s.cursor).1, curCol := (nextCell s.cursor).2, seq := some k }) ∧
  nextCell (0, 114) = (0, 120) ∧ nextCell (0, 120) = (1, 0) ∧ nextCell (7, 120) = (0, 0) ∧
  (∀ r : Row, nextCell^[21] (r, 0) = (r + 1, 0)) ∧
  (∀ (r : Row) (c : Col), isCell c = true → nextCell^[168] (r, c) = (r, c))

/-- 60_exceptions.md R108: after an aborted command, STOP completes, closes the transaction and returns the bus to IDLE,
and then every command that requires IDLE is accepted. Until then each of those is rejected with `STATE`; and at every point
of the run of any command but STOP the bus state is HELD, so that of the commands only STOP leads out. -/
def Obligations.StopRecoversFromAnAbort : Prop :=
  ∀ (s f : State) (ts : List (List Byte)) (j : Nat), s.inputs = [] → f = s.abortedAt ts j f →
    (∀ i, requiredBus i = .idle → exec i f = .next { f with code := .state, xcnt := 0 }) ∧
    (∀ (i : Instr) (t g : State) (n : Nat), i ≠ .stop → exec i f = .next t →
      Host.Core.run Sys2Proof.core n t = .next g → g.bus = .held) ∧
    (f.releases 1 → ∃ t g, exec .stop f = .next t ∧ Runs t g ∧
      g = { f with
        code := .ok, xcnt := 0, bus := .idle, sclOut := true, sdaOut := true, envScl := afterReleases 1 f.envScl
        trace := stopEvents.reverse ++ f.trace } ∧
      ∀ i, requiredBus i = .idle → ∃ u, exec i g = .next u ∧ u.busy = true)
end

