-- ==== Sys2Proof/Laws/State.lean ====
section
/-! SUPPORT. For each named update of the state, one lemma per field, so that no later proof unfolds a record update. -/

namespace Sys2Proof.Machine

/-! ### Appending an event to the line trace (00_scope.md R14). -/

@[simp] theorem State.emit_data (s : State) (e : LineEvent) : (State.emit e s).data = s.data := rfl
@[simp] theorem State.emit_ack (s : State) (e : LineEvent) : (State.emit e s).ack = s.ack := rfl
@[simp] theorem State.emit_code (s : State) (e : LineEvent) : (State.emit e s).code = s.code := rfl
@[simp] theorem State.emit_ovr (s : State) (e : LineEvent) : (State.emit e s).ovr = s.ovr := rfl
@[simp] theorem State.emit_xcnt (s : State) (e : LineEvent) : (State.emit e s).xcnt = s.xcnt := rfl
@[simp] theorem State.emit_curRow (s : State) (e : LineEvent) : (State.emit e s).curRow = s.curRow := rfl
@[simp] theorem State.emit_curCol (s : State) (e : LineEvent) : (State.emit e s).curCol = s.curCol := rfl
@[simp] theorem State.emit_wrow (s : State) (e : LineEvent) : (State.emit e s).wrow = s.wrow := rfl
@[simp] theorem State.emit_wcol (s : State) (e : LineEvent) : (State.emit e s).wcol = s.wcol := rfl
@[simp] theorem State.emit_gbuf0 (s : State) (e : LineEvent) : (State.emit e s).gbuf0 = s.gbuf0 := rfl
@[simp] theorem State.emit_gbuf1 (s : State) (e : LineEvent) : (State.emit e s).gbuf1 = s.gbuf1 := rfl
@[simp] theorem State.emit_gbuf2 (s : State) (e : LineEvent) : (State.emit e s).gbuf2 = s.gbuf2 := rfl
@[simp] theorem State.emit_gbuf3 (s : State) (e : LineEvent) : (State.emit e s).gbuf3 = s.gbuf3 := rfl
@[simp] theorem State.emit_gbuf4 (s : State) (e : LineEvent) : (State.emit e s).gbuf4 = s.gbuf4 := rfl
@[simp] theorem State.emit_gbuf5 (s : State) (e : LineEvent) : (State.emit e s).gbuf5 = s.gbuf5 := rfl
@[simp] theorem State.emit_sclOut (s : State) (e : LineEvent) : (State.emit e s).sclOut = s.sclOut := rfl
@[simp] theorem State.emit_sdaOut (s : State) (e : LineEvent) : (State.emit e s).sdaOut = s.sdaOut := rfl
@[simp] theorem State.emit_bus (s : State) (e : LineEvent) : (State.emit e s).bus = s.bus := rfl
@[simp] theorem State.emit_sr (s : State) (e : LineEvent) : (State.emit e s).sr = s.sr := rfl
@[simp] theorem State.emit_bitcnt (s : State) (e : LineEvent) : (State.emit e s).bitcnt = s.bitcnt := rfl
@[simp] theorem State.emit_seq (s : State) (e : LineEvent) : (State.emit e s).seq = s.seq := rfl
@[simp] theorem State.emit_params (s : State) (e : LineEvent) : (State.emit e s).params = s.params := rfl
@[simp] theorem State.emit_trace (s : State) (e : LineEvent) : (State.emit e s).trace = e :: s.trace := rfl
@[simp] theorem State.emit_reads (s : State) (e : LineEvent) : (State.emit e s).reads = s.reads := rfl
@[simp] theorem State.emit_inputs (s : State) (e : LineEvent) : (State.emit e s).inputs = s.inputs := rfl
@[simp] theorem State.emit_envScl (s : State) (e : LineEvent) : (State.emit e s).envScl = s.envScl := rfl
@[simp] theorem State.emit_envSda (s : State) (e : LineEvent) : (State.emit e s).envSda = s.envSda := rfl
@[simp] theorem State.emit_draws (s : State) (e : LineEvent) : (State.emit e s).draws = s.draws := rfl

/-! ### `SetSCL` (00_scope.md R14). -/

@[simp] theorem State.setScl_data (s : State) (v : Level) : (State.setScl v s).data = s.data := rfl
@[simp] theorem State.setScl_ack (s : State) (v : Level) : (State.setScl v s).ack = s.ack := rfl
@[simp] theorem State.setScl_code (s : State) (v : Level) : (State.setScl v s).code = s.code := rfl
@[simp] theorem State.setScl_ovr (s : State) (v : Level) : (State.setScl v s).ovr = s.ovr := rfl
@[simp] theorem State.setScl_xcnt (s : State) (v : Level) : (State.setScl v s).xcnt = s.xcnt := rfl
@[simp] theorem State.setScl_curRow (s : State) (v : Level) : (State.setScl v s).curRow = s.curRow := rfl
@[simp] theorem State.setScl_curCol (s : State) (v : Level) : (State.setScl v s).curCol = s.curCol := rfl
@[simp] theorem State.setScl_wrow (s : State) (v : Level) : (State.setScl v s).wrow = s.wrow := rfl
@[simp] theorem State.setScl_wcol (s : State) (v : Level) : (State.setScl v s).wcol = s.wcol := rfl
@[simp] theorem State.setScl_gbuf0 (s : State) (v : Level) : (State.setScl v s).gbuf0 = s.gbuf0 := rfl
@[simp] theorem State.setScl_gbuf1 (s : State) (v : Level) : (State.setScl v s).gbuf1 = s.gbuf1 := rfl
@[simp] theorem State.setScl_gbuf2 (s : State) (v : Level) : (State.setScl v s).gbuf2 = s.gbuf2 := rfl
@[simp] theorem State.setScl_gbuf3 (s : State) (v : Level) : (State.setScl v s).gbuf3 = s.gbuf3 := rfl
@[simp] theorem State.setScl_gbuf4 (s : State) (v : Level) : (State.setScl v s).gbuf4 = s.gbuf4 := rfl
@[simp] theorem State.setScl_gbuf5 (s : State) (v : Level) : (State.setScl v s).gbuf5 = s.gbuf5 := rfl
@[simp] theorem State.setScl_sclOut (s : State) (v : Level) : (State.setScl v s).sclOut = v := rfl
@[simp] theorem State.setScl_sdaOut (s : State) (v : Level) : (State.setScl v s).sdaOut = s.sdaOut := rfl
@[simp] theorem State.setScl_bus (s : State) (v : Level) : (State.setScl v s).bus = s.bus := rfl
@[simp] theorem State.setScl_sr (s : State) (v : Level) : (State.setScl v s).sr = s.sr := rfl
@[simp] theorem State.setScl_bitcnt (s : State) (v : Level) : (State.setScl v s).bitcnt = s.bitcnt := rfl
@[simp] theorem State.setScl_seq (s : State) (v : Level) : (State.setScl v s).seq = s.seq := rfl
@[simp] theorem State.setScl_params (s : State) (v : Level) : (State.setScl v s).params = s.params := rfl
@[simp] theorem State.setScl_trace (s : State) (v : Level) : (State.setScl v s).trace = .scl v :: s.trace := rfl
@[simp] theorem State.setScl_reads (s : State) (v : Level) : (State.setScl v s).reads = s.reads := rfl
@[simp] theorem State.setScl_inputs (s : State) (v : Level) : (State.setScl v s).inputs = s.inputs := rfl
@[simp] theorem State.setScl_envScl (s : State) (v : Level) : (State.setScl v s).envScl = s.envScl := rfl
@[simp] theorem State.setScl_envSda (s : State) (v : Level) : (State.setScl v s).envSda = s.envSda := rfl
@[simp] theorem State.setScl_draws (s : State) (v : Level) : (State.setScl v s).draws = s.draws := rfl

/-! ### `SetSDA` (00_scope.md R14). -/

@[simp] theorem State.setSda_data (s : State) (v : Level) : (State.setSda v s).data = s.data := rfl
@[simp] theorem State.setSda_ack (s : State) (v : Level) : (State.setSda v s).ack = s.ack := rfl
@[simp] theorem State.setSda_code (s : State) (v : Level) : (State.setSda v s).code = s.code := rfl
@[simp] theorem State.setSda_ovr (s : State) (v : Level) : (State.setSda v s).ovr = s.ovr := rfl
@[simp] theorem State.setSda_xcnt (s : State) (v : Level) : (State.setSda v s).xcnt = s.xcnt := rfl
@[simp] theorem State.setSda_curRow (s : State) (v : Level) : (State.setSda v s).curRow = s.curRow := rfl
@[simp] theorem State.setSda_curCol (s : State) (v : Level) : (State.setSda v s).curCol = s.curCol := rfl
@[simp] theorem State.setSda_wrow (s : State) (v : Level) : (State.setSda v s).wrow = s.wrow := rfl
@[simp] theorem State.setSda_wcol (s : State) (v : Level) : (State.setSda v s).wcol = s.wcol := rfl
@[simp] theorem State.setSda_gbuf0 (s : State) (v : Level) : (State.setSda v s).gbuf0 = s.gbuf0 := rfl
@[simp] theorem State.setSda_gbuf1 (s : State) (v : Level) : (State.setSda v s).gbuf1 = s.gbuf1 := rfl
@[simp] theorem State.setSda_gbuf2 (s : State) (v : Level) : (State.setSda v s).gbuf2 = s.gbuf2 := rfl
@[simp] theorem State.setSda_gbuf3 (s : State) (v : Level) : (State.setSda v s).gbuf3 = s.gbuf3 := rfl
@[simp] theorem State.setSda_gbuf4 (s : State) (v : Level) : (State.setSda v s).gbuf4 = s.gbuf4 := rfl
@[simp] theorem State.setSda_gbuf5 (s : State) (v : Level) : (State.setSda v s).gbuf5 = s.gbuf5 := rfl
@[simp] theorem State.setSda_sclOut (s : State) (v : Level) : (State.setSda v s).sclOut = s.sclOut := rfl
@[simp] theorem State.setSda_sdaOut (s : State) (v : Level) : (State.setSda v s).sdaOut = v := rfl
@[simp] theorem State.setSda_bus (s : State) (v : Level) : (State.setSda v s).bus = s.bus := rfl
@[simp] theorem State.setSda_sr (s : State) (v : Level) : (State.setSda v s).sr = s.sr := rfl
@[simp] theorem State.setSda_bitcnt (s : State) (v : Level) : (State.setSda v s).bitcnt = s.bitcnt := rfl
@[simp] theorem State.setSda_seq (s : State) (v : Level) : (State.setSda v s).seq = s.seq := rfl
@[simp] theorem State.setSda_params (s : State) (v : Level) : (State.setSda v s).params = s.params := rfl
@[simp] theorem State.setSda_trace (s : State) (v : Level) : (State.setSda v s).trace = .sda v :: s.trace := rfl
@[simp] theorem State.setSda_reads (s : State) (v : Level) : (State.setSda v s).reads = s.reads := rfl
@[simp] theorem State.setSda_inputs (s : State) (v : Level) : (State.setSda v s).inputs = s.inputs := rfl
@[simp] theorem State.setSda_envScl (s : State) (v : Level) : (State.setSda v s).envScl = s.envScl := rfl
@[simp] theorem State.setSda_envSda (s : State) (v : Level) : (State.setSda v s).envSda = s.envSda := rfl
@[simp] theorem State.setSda_draws (s : State) (v : Level) : (State.setSda v s).draws = s.draws := rfl

/-! ### The running command goes on. -/

@[simp] theorem State.goOn_data (s : State) (k : List Micro) : (State.goOn k s).data = s.data := rfl
@[simp] theorem State.goOn_ack (s : State) (k : List Micro) : (State.goOn k s).ack = s.ack := rfl
@[simp] theorem State.goOn_code (s : State) (k : List Micro) : (State.goOn k s).code = s.code := rfl
@[simp] theorem State.goOn_ovr (s : State) (k : List Micro) : (State.goOn k s).ovr = s.ovr := rfl
@[simp] theorem State.goOn_xcnt (s : State) (k : List Micro) : (State.goOn k s).xcnt = s.xcnt := rfl
@[simp] theorem State.goOn_curRow (s : State) (k : List Micro) : (State.goOn k s).curRow = s.curRow := rfl
@[simp] theorem State.goOn_curCol (s : State) (k : List Micro) : (State.goOn k s).curCol = s.curCol := rfl
@[simp] theorem State.goOn_wrow (s : State) (k : List Micro) : (State.goOn k s).wrow = s.wrow := rfl
@[simp] theorem State.goOn_wcol (s : State) (k : List Micro) : (State.goOn k s).wcol = s.wcol := rfl
@[simp] theorem State.goOn_gbuf0 (s : State) (k : List Micro) : (State.goOn k s).gbuf0 = s.gbuf0 := rfl
@[simp] theorem State.goOn_gbuf1 (s : State) (k : List Micro) : (State.goOn k s).gbuf1 = s.gbuf1 := rfl
@[simp] theorem State.goOn_gbuf2 (s : State) (k : List Micro) : (State.goOn k s).gbuf2 = s.gbuf2 := rfl
@[simp] theorem State.goOn_gbuf3 (s : State) (k : List Micro) : (State.goOn k s).gbuf3 = s.gbuf3 := rfl
@[simp] theorem State.goOn_gbuf4 (s : State) (k : List Micro) : (State.goOn k s).gbuf4 = s.gbuf4 := rfl
@[simp] theorem State.goOn_gbuf5 (s : State) (k : List Micro) : (State.goOn k s).gbuf5 = s.gbuf5 := rfl
@[simp] theorem State.goOn_sclOut (s : State) (k : List Micro) : (State.goOn k s).sclOut = s.sclOut := rfl
@[simp] theorem State.goOn_sdaOut (s : State) (k : List Micro) : (State.goOn k s).sdaOut = s.sdaOut := rfl
@[simp] theorem State.goOn_bus (s : State) (k : List Micro) : (State.goOn k s).bus = s.bus := rfl
@[simp] theorem State.goOn_sr (s : State) (k : List Micro) : (State.goOn k s).sr = s.sr := rfl
@[simp] theorem State.goOn_bitcnt (s : State) (k : List Micro) : (State.goOn k s).bitcnt = s.bitcnt := rfl
@[simp] theorem State.goOn_seq (s : State) (k : List Micro) : (State.goOn k s).seq = some k := rfl
@[simp] theorem State.goOn_params (s : State) (k : List Micro) : (State.goOn k s).params = s.params := rfl
@[simp] theorem State.goOn_trace (s : State) (k : List Micro) : (State.goOn k s).trace = s.trace := rfl
@[simp] theorem State.goOn_reads (s : State) (k : List Micro) : (State.goOn k s).reads = s.reads := rfl
@[simp] theorem State.goOn_inputs (s : State) (k : List Micro) : (State.goOn k s).inputs = s.inputs := rfl
@[simp] theorem State.goOn_envScl (s : State) (k : List Micro) : (State.goOn k s).envScl = s.envScl := rfl
@[simp] theorem State.goOn_envSda (s : State) (k : List Micro) : (State.goOn k s).envSda = s.envSda := rfl
@[simp] theorem State.goOn_draws (s : State) (k : List Micro) : (State.goOn k s).draws = s.draws := rfl

/-! ### A lost host write (40_command_issue.md R65). -/

@[simp] theorem State.overrun_data (s : State) : (State.overrun s).data = s.data := rfl
@[simp] theorem State.overrun_ack (s : State) : (State.overrun s).ack = s.ack := rfl
@[simp] theorem State.overrun_code (s : State) : (State.overrun s).code = s.code := rfl
@[simp] theorem State.overrun_ovr (s : State) : (State.overrun s).ovr = true := rfl
@[simp] theorem State.overrun_xcnt (s : State) : (State.overrun s).xcnt = s.xcnt := rfl
@[simp] theorem State.overrun_curRow (s : State) : (State.overrun s).curRow = s.curRow := rfl
@[simp] theorem State.overrun_curCol (s : State) : (State.overrun s).curCol = s.curCol := rfl
@[simp] theorem State.overrun_wrow (s : State) : (State.overrun s).wrow = s.wrow := rfl
@[simp] theorem State.overrun_wcol (s : State) : (State.overrun s).wcol = s.wcol := rfl
@[simp] theorem State.overrun_gbuf0 (s : State) : (State.overrun s).gbuf0 = s.gbuf0 := rfl
@[simp] theorem State.overrun_gbuf1 (s : State) : (State.overrun s).gbuf1 = s.gbuf1 := rfl
@[simp] theorem State.overrun_gbuf2 (s : State) : (State.overrun s).gbuf2 = s.gbuf2 := rfl
@[simp] theorem State.overrun_gbuf3 (s : State) : (State.overrun s).gbuf3 = s.gbuf3 := rfl
@[simp] theorem State.overrun_gbuf4 (s : State) : (State.overrun s).gbuf4 = s.gbuf4 := rfl
@[simp] theorem State.overrun_gbuf5 (s : State) : (State.overrun s).gbuf5 = s.gbuf5 := rfl
@[simp] theorem State.overrun_sclOut (s : State) : (State.overrun s).sclOut = s.sclOut := rfl
@[simp] theorem State.overrun_sdaOut (s : State) : (State.overrun s).sdaOut = s.sdaOut := rfl
@[simp] theorem State.overrun_bus (s : State) : (State.overrun s).bus = s.bus := rfl
@[simp] theorem State.overrun_sr (s : State) : (State.overrun s).sr = s.sr := rfl
@[simp] theorem State.overrun_bitcnt (s : State) : (State.overrun s).bitcnt = s.bitcnt := rfl
@[simp] theorem State.overrun_seq (s : State) : (State.overrun s).seq = s.seq := rfl
@[simp] theorem State.overrun_params (s : State) : (State.overrun s).params = s.params := rfl
@[simp] theorem State.overrun_trace (s : State) : (State.overrun s).trace = s.trace := rfl
@[simp] theorem State.overrun_reads (s : State) : (State.overrun s).reads = s.reads := rfl
@[simp] theorem State.overrun_inputs (s : State) : (State.overrun s).inputs = s.inputs := rfl
@[simp] theorem State.overrun_envScl (s : State) : (State.overrun s).envScl = s.envScl := rfl
@[simp] theorem State.overrun_envSda (s : State) : (State.overrun s).envSda = s.envSda := rfl
@[simp] theorem State.overrun_draws (s : State) : (State.overrun s).draws = s.draws := rfl

/-! ### `reject` (40_command_issue.md R67). -/

@[simp] theorem State.reject_data (s : State) (c : ErrCode) : (State.reject c s).data = s.data := rfl
@[simp] theorem State.reject_ack (s : State) (c : ErrCode) : (State.reject c s).ack = s.ack := rfl
@[simp] theorem State.reject_code (s : State) (c : ErrCode) : (State.reject c s).code = c := rfl
@[simp] theorem State.reject_ovr (s : State) (c : ErrCode) : (State.reject c s).ovr = s.ovr := rfl
@[simp] theorem State.reject_xcnt (s : State) (c : ErrCode) : (State.reject c s).xcnt = 0 := rfl
@[simp] theorem State.reject_curRow (s : State) (c : ErrCode) : (State.reject c s).curRow = s.curRow := rfl
@[simp] theorem State.reject_curCol (s : State) (c : ErrCode) : (State.reject c s).curCol = s.curCol := rfl
@[simp] theorem State.reject_wrow (s : State) (c : ErrCode) : (State.reject c s).wrow = s.wrow := rfl
@[simp] theorem State.reject_wcol (s : State) (c : ErrCode) : (State.reject c s).wcol = s.wcol := rfl
@[simp] theorem State.reject_gbuf0 (s : State) (c : ErrCode) : (State.reject c s).gbuf0 = s.gbuf0 := rfl
@[simp] theorem State.reject_gbuf1 (s : State) (c : ErrCode) : (State.reject c s).gbuf1 = s.gbuf1 := rfl
@[simp] theorem State.reject_gbuf2 (s : State) (c : ErrCode) : (State.reject c s).gbuf2 = s.gbuf2 := rfl
@[simp] theorem State.reject_gbuf3 (s : State) (c : ErrCode) : (State.reject c s).gbuf3 = s.gbuf3 := rfl
@[simp] theorem State.reject_gbuf4 (s : State) (c : ErrCode) : (State.reject c s).gbuf4 = s.gbuf4 := rfl
@[simp] theorem State.reject_gbuf5 (s : State) (c : ErrCode) : (State.reject c s).gbuf5 = s.gbuf5 := rfl
@[simp] theorem State.reject_sclOut (s : State) (c : ErrCode) : (State.reject c s).sclOut = s.sclOut := rfl
@[simp] theorem State.reject_sdaOut (s : State) (c : ErrCode) : (State.reject c s).sdaOut = s.sdaOut := rfl
@[simp] theorem State.reject_bus (s : State) (c : ErrCode) : (State.reject c s).bus = s.bus := rfl
@[simp] theorem State.reject_sr (s : State) (c : ErrCode) : (State.reject c s).sr = s.sr := rfl
@[simp] theorem State.reject_bitcnt (s : State) (c : ErrCode) : (State.reject c s).bitcnt = s.bitcnt := rfl
@[simp] theorem State.reject_seq (s : State) (c : ErrCode) : (State.reject c s).seq = s.seq := rfl
@[simp] theorem State.reject_params (s : State) (c : ErrCode) : (State.reject c s).params = s.params := rfl
@[simp] theorem State.reject_trace (s : State) (c : ErrCode) : (State.reject c s).trace = s.trace := rfl
@[simp] theorem State.reject_reads (s : State) (c : ErrCode) : (State.reject c s).reads = s.reads := rfl
@[simp] theorem State.reject_inputs (s : State) (c : ErrCode) : (State.reject c s).inputs = s.inputs := rfl
@[simp] theorem State.reject_envScl (s : State) (c : ErrCode) : (State.reject c s).envScl = s.envScl := rfl
@[simp] theorem State.reject_envSda (s : State) (c : ErrCode) : (State.reject c s).envSda = s.envSda := rfl
@[simp] theorem State.reject_draws (s : State) (c : ErrCode) : (State.reject c s).draws = s.draws := rfl

/-! ### Acceptance (40_command_issue.md R66). -/

@[simp] theorem State.accept_data (s : State) (p : List Micro) : (State.accept p s).data = s.data := rfl
@[simp] theorem State.accept_ack (s : State) (p : List Micro) : (State.accept p s).ack = s.ack := rfl
@[simp] theorem State.accept_code (s : State) (p : List Micro) : (State.accept p s).code = s.code := rfl
@[simp] theorem State.accept_ovr (s : State) (p : List Micro) : (State.accept p s).ovr = s.ovr := rfl
@[simp] theorem State.accept_xcnt (s : State) (p : List Micro) : (State.accept p s).xcnt = 0 := rfl
@[simp] theorem State.accept_curRow (s : State) (p : List Micro) : (State.accept p s).curRow = s.curRow := rfl
@[simp] theorem State.accept_curCol (s : State) (p : List Micro) : (State.accept p s).curCol = s.curCol := rfl
@[simp] theorem State.accept_wrow (s : State) (p : List Micro) : (State.accept p s).wrow = s.wrow := rfl
@[simp] theorem State.accept_wcol (s : State) (p : List Micro) : (State.accept p s).wcol = s.wcol := rfl
@[simp] theorem State.accept_gbuf0 (s : State) (p : List Micro) : (State.accept p s).gbuf0 = s.gbuf0 := rfl
@[simp] theorem State.accept_gbuf1 (s : State) (p : List Micro) : (State.accept p s).gbuf1 = s.gbuf1 := rfl
@[simp] theorem State.accept_gbuf2 (s : State) (p : List Micro) : (State.accept p s).gbuf2 = s.gbuf2 := rfl
@[simp] theorem State.accept_gbuf3 (s : State) (p : List Micro) : (State.accept p s).gbuf3 = s.gbuf3 := rfl
@[simp] theorem State.accept_gbuf4 (s : State) (p : List Micro) : (State.accept p s).gbuf4 = s.gbuf4 := rfl
@[simp] theorem State.accept_gbuf5 (s : State) (p : List Micro) : (State.accept p s).gbuf5 = s.gbuf5 := rfl
@[simp] theorem State.accept_sclOut (s : State) (p : List Micro) : (State.accept p s).sclOut = s.sclOut := rfl
@[simp] theorem State.accept_sdaOut (s : State) (p : List Micro) : (State.accept p s).sdaOut = s.sdaOut := rfl
@[simp] theorem State.accept_bus (s : State) (p : List Micro) : (State.accept p s).bus = s.bus := rfl
@[simp] theorem State.accept_sr (s : State) (p : List Micro) : (State.accept p s).sr = s.sr := rfl
@[simp] theorem State.accept_bitcnt (s : State) (p : List Micro) : (State.accept p s).bitcnt = s.bitcnt := rfl
@[simp] theorem State.accept_seq (s : State) (p : List Micro) : (State.accept p s).seq = some (p ++ [.setCode .ok]) := rfl
@[simp] theorem State.accept_params (s : State) (p : List Micro) : (State.accept p s).params = s.params := rfl
@[simp] theorem State.accept_trace (s : State) (p : List Micro) : (State.accept p s).trace = s.trace := rfl
@[simp] theorem State.accept_reads (s : State) (p : List Micro) : (State.accept p s).reads = s.reads := rfl
@[simp] theorem State.accept_inputs (s : State) (p : List Micro) : (State.accept p s).inputs = s.inputs := rfl
@[simp] theorem State.accept_envScl (s : State) (p : List Micro) : (State.accept p s).envScl = s.envScl := rfl
@[simp] theorem State.accept_envSda (s : State) (p : List Micro) : (State.accept p s).envSda = s.envSda := rfl
@[simp] theorem State.accept_draws (s : State) (p : List Micro) : (State.accept p s).draws = s.draws := rfl

/-! ### `abort` (00_scope.md R16). -/

@[simp] theorem State.abort_data (s : State) (c : ErrCode) : (State.abort c s).data = s.data := rfl
@[simp] theorem State.abort_ack (s : State) (c : ErrCode) : (State.abort c s).ack = s.ack := rfl
@[simp] theorem State.abort_code (s : State) (c : ErrCode) : (State.abort c s).code = s.code := rfl
@[simp] theorem State.abort_ovr (s : State) (c : ErrCode) : (State.abort c s).ovr = s.ovr := rfl
@[simp] theorem State.abort_xcnt (s : State) (c : ErrCode) : (State.abort c s).xcnt = s.xcnt := rfl
@[simp] theorem State.abort_curRow (s : State) (c : ErrCode) : (State.abort c s).curRow = s.curRow := rfl
@[simp] theorem State.abort_curCol (s : State) (c : ErrCode) : (State.abort c s).curCol = s.curCol := rfl
@[simp] theorem State.abort_wrow (s : State) (c : ErrCode) : (State.abort c s).wrow = s.wrow := rfl
@[simp] theorem State.abort_wcol (s : State) (c : ErrCode) : (State.abort c s).wcol = s.wcol := rfl
@[simp] theorem State.abort_gbuf0 (s : State) (c : ErrCode) : (State.abort c s).gbuf0 = s.gbuf0 := rfl
@[simp] theorem State.abort_gbuf1 (s : State) (c : ErrCode) : (State.abort c s).gbuf1 = s.gbuf1 := rfl
@[simp] theorem State.abort_gbuf2 (s : State) (c : ErrCode) : (State.abort c s).gbuf2 = s.gbuf2 := rfl
@[simp] theorem State.abort_gbuf3 (s : State) (c : ErrCode) : (State.abort c s).gbuf3 = s.gbuf3 := rfl
@[simp] theorem State.abort_gbuf4 (s : State) (c : ErrCode) : (State.abort c s).gbuf4 = s.gbuf4 := rfl
@[simp] theorem State.abort_gbuf5 (s : State) (c : ErrCode) : (State.abort c s).gbuf5 = s.gbuf5 := rfl
@[simp] theorem State.abort_sclOut (s : State) (c : ErrCode) : (State.abort c s).sclOut = s.sclOut := rfl
@[simp] theorem State.abort_sdaOut (s : State) (c : ErrCode) : (State.abort c s).sdaOut = s.sdaOut := rfl
@[simp] theorem State.abort_bus (s : State) (c : ErrCode) : (State.abort c s).bus = s.bus := rfl
@[simp] theorem State.abort_sr (s : State) (c : ErrCode) : (State.abort c s).sr = s.sr := rfl
@[simp] theorem State.abort_bitcnt (s : State) (c : ErrCode) : (State.abort c s).bitcnt = s.bitcnt := rfl
@[simp] theorem State.abort_seq (s : State) (c : ErrCode) : (State.abort c s).seq = some [.setCode c] := rfl
@[simp] theorem State.abort_params (s : State) (c : ErrCode) : (State.abort c s).params = s.params := rfl
@[simp] theorem State.abort_trace (s : State) (c : ErrCode) : (State.abort c s).trace = s.trace := rfl
@[simp] theorem State.abort_reads (s : State) (c : ErrCode) : (State.abort c s).reads = s.reads := rfl
@[simp] theorem State.abort_inputs (s : State) (c : ErrCode) : (State.abort c s).inputs = s.inputs := rfl
@[simp] theorem State.abort_envScl (s : State) (c : ErrCode) : (State.abort c s).envScl = s.envScl := rfl
@[simp] theorem State.abort_envSda (s : State) (c : ErrCode) : (State.abort c s).envSda = s.envSda := rfl
@[simp] theorem State.abort_draws (s : State) (c : ErrCode) : (State.abort c s).draws = s.draws := rfl

/-! ### The end of a command (40_command_issue.md R69). -/

@[simp] theorem State.endCommand_data (s : State) : (State.endCommand s).data = s.data := rfl
@[simp] theorem State.endCommand_ack (s : State) : (State.endCommand s).ack = s.ack := rfl
@[simp] theorem State.endCommand_code (s : State) : (State.endCommand s).code = s.code := rfl
@[simp] theorem State.endCommand_ovr (s : State) : (State.endCommand s).ovr = s.ovr := rfl
@[simp] theorem State.endCommand_xcnt (s : State) : (State.endCommand s).xcnt = s.xcnt := rfl
@[simp] theorem State.endCommand_curRow (s : State) : (State.endCommand s).curRow = s.curRow := rfl
@[simp] theorem State.endCommand_curCol (s : State) : (State.endCommand s).curCol = s.curCol := rfl
@[simp] theorem State.endCommand_wrow (s : State) : (State.endCommand s).wrow = s.wrow := rfl
@[simp] theorem State.endCommand_wcol (s : State) : (State.endCommand s).wcol = s.wcol := rfl
@[simp] theorem State.endCommand_gbuf0 (s : State) : (State.endCommand s).gbuf0 = s.gbuf0 := rfl
@[simp] theorem State.endCommand_gbuf1 (s : State) : (State.endCommand s).gbuf1 = s.gbuf1 := rfl
@[simp] theorem State.endCommand_gbuf2 (s : State) : (State.endCommand s).gbuf2 = s.gbuf2 := rfl
@[simp] theorem State.endCommand_gbuf3 (s : State) : (State.endCommand s).gbuf3 = s.gbuf3 := rfl
@[simp] theorem State.endCommand_gbuf4 (s : State) : (State.endCommand s).gbuf4 = s.gbuf4 := rfl
@[simp] theorem State.endCommand_gbuf5 (s : State) : (State.endCommand s).gbuf5 = s.gbuf5 := rfl
@[simp] theorem State.endCommand_sclOut (s : State) : (State.endCommand s).sclOut = s.sclOut := rfl
@[simp] theorem State.endCommand_sdaOut (s : State) : (State.endCommand s).sdaOut = s.sdaOut := rfl
@[simp] theorem State.endCommand_bus (s : State) : (State.endCommand s).bus = s.bus := rfl
@[simp] theorem State.endCommand_sr (s : State) : (State.endCommand s).sr = s.sr := rfl
@[simp] theorem State.endCommand_bitcnt (s : State) : (State.endCommand s).bitcnt = s.bitcnt := rfl
@[simp] theorem State.endCommand_seq (s : State) : (State.endCommand s).seq = none := rfl
@[simp] theorem State.endCommand_params (s : State) : (State.endCommand s).params = s.params := rfl
@[simp] theorem State.endCommand_trace (s : State) : (State.endCommand s).trace = s.trace := rfl
@[simp] theorem State.endCommand_reads (s : State) : (State.endCommand s).reads = s.reads := rfl
@[simp] theorem State.endCommand_inputs (s : State) : (State.endCommand s).inputs = s.inputs := rfl
@[simp] theorem State.endCommand_envScl (s : State) : (State.endCommand s).envScl = s.envScl := rfl
@[simp] theorem State.endCommand_envSda (s : State) : (State.endCommand s).envSda = s.envSda := rfl
@[simp] theorem State.endCommand_draws (s : State) : (State.endCommand s).draws = s.draws := rfl

/-! ### A draw of the environment (`afterSclDraw`, 00_scope.md R15). -/

@[simp] theorem State.afterSclDraw_data (s : State) : s.afterSclDraw.data = s.data := by
  unfold State.afterSclDraw; split <;> rfl
@[simp] theorem State.afterSclDraw_ack (s : State) : s.afterSclDraw.ack = s.ack := by
  unfold State.afterSclDraw; split <;> rfl
@[simp] theorem State.afterSclDraw_code (s : State) : s.afterSclDraw.code = s.code := by
  unfold State.afterSclDraw; split <;> rfl
@[simp] theorem State.afterSclDraw_ovr (s : State) : s.afterSclDraw.ovr = s.ovr := by
  unfold State.afterSclDraw; split <;> rfl
@[simp] theorem State.afterSclDraw_xcnt (s : State) : s.afterSclDraw.xcnt = s.xcnt := by
  unfold State.afterSclDraw; split <;> rfl
@[simp] theorem State.afterSclDraw_curRow (s : State) : s.afterSclDraw.curRow = s.curRow := by
  unfold State.afterSclDraw; split <;> rfl
@[simp] theorem State.afterSclDraw_curCol (s : State) : s.afterSclDraw.curCol = s.curCol := by
  unfold State.afterSclDraw; split <;> rfl
@[simp] theorem State.afterSclDraw_wrow (s : State) : s.afterSclDraw.wrow = s.wrow := by
  unfold State.afterSclDraw; split <;> rfl
@[simp] theorem State.afterSclDraw_wcol (s : State) : s.afterSclDraw.wcol = s.wcol := by
  unfold State.afterSclDraw; split <;> rfl
@[simp] theorem State.afterSclDraw_gbuf0 (s : State) : s.afterSclDraw.gbuf0 = s.gbuf0 := by
  unfold State.afterSclDraw; split <;> rfl
@[simp] theorem State.afterSclDraw_gbuf1 (s : State) : s.afterSclDraw.gbuf1 = s.gbuf1 := by
  unfold State.afterSclDraw; split <;> rfl
@[simp] theorem State.afterSclDraw_gbuf2 (s : State) : s.afterSclDraw.gbuf2 = s.gbuf2 := by
  unfold State.afterSclDraw; split <;> rfl
@[simp] theorem State.afterSclDraw_gbuf3 (s : State) : s.afterSclDraw.gbuf3 = s.gbuf3 := by
  unfold State.afterSclDraw; split <;> rfl
@[simp] theorem State.afterSclDraw_gbuf4 (s : State) : s.afterSclDraw.gbuf4 = s.gbuf4 := by
  unfold State.afterSclDraw; split <;> rfl
@[simp] theorem State.afterSclDraw_gbuf5 (s : State) : s.afterSclDraw.gbuf5 = s.gbuf5 := by
  unfold State.afterSclDraw; split <;> rfl
@[simp] theorem State.afterSclDraw_sclOut (s : State) : s.afterSclDraw.sclOut = s.sclOut := by
  unfold State.afterSclDraw; split <;> rfl
@[simp] theorem State.afterSclDraw_sdaOut (s : State) : s.afterSclDraw.sdaOut = s.sdaOut := by
  unfold State.afterSclDraw; split <;> rfl
@[simp] theorem State.afterSclDraw_bus (s : State) : s.afterSclDraw.bus = s.bus := by
  unfold State.afterSclDraw; split <;> rfl
@[simp] theorem State.afterSclDraw_sr (s : State) : s.afterSclDraw.sr = s.sr := by
  unfold State.afterSclDraw; split <;> rfl
@[simp] theorem State.afterSclDraw_bitcnt (s : State) : s.afterSclDraw.bitcnt = s.bitcnt := by
  unfold State.afterSclDraw; split <;> rfl
@[simp] theorem State.afterSclDraw_seq (s : State) : s.afterSclDraw.seq = s.seq := by
  unfold State.afterSclDraw; split <;> rfl
@[simp] theorem State.afterSclDraw_params (s : State) : s.afterSclDraw.params = s.params := by
  unfold State.afterSclDraw; split <;> rfl
@[simp] theorem State.afterSclDraw_trace (s : State) : s.afterSclDraw.trace = s.trace := by
  unfold State.afterSclDraw; split <;> rfl
@[simp] theorem State.afterSclDraw_reads (s : State) : s.afterSclDraw.reads = s.reads := by
  unfold State.afterSclDraw; split <;> rfl
@[simp] theorem State.afterSclDraw_inputs (s : State) : s.afterSclDraw.inputs = s.inputs := by
  unfold State.afterSclDraw; split <;> rfl
@[simp] theorem State.afterSclDraw_envScl (s : State) : s.afterSclDraw.envScl = s.envScl.tail := by
  unfold State.afterSclDraw; split <;> simp_all
@[simp] theorem State.afterSclDraw_envSda (s : State) : s.afterSclDraw.envSda = s.envSda := by
  unfold State.afterSclDraw; split <;> rfl
theorem State.afterSclDraw_draws (s : State) : s.afterSclDraw.draws = if s.envScl = [] then s.draws + 1 else s.draws := by
  unfold State.afterSclDraw; split <;> simp_all

/-! ### A draw of the environment (`afterSdaDraw`, 00_scope.md R15). -/

@[simp] theorem State.afterSdaDraw_data (s : State) : s.afterSdaDraw.data = s.data := by
  unfold State.afterSdaDraw; split <;> rfl
@[simp] theorem State.afterSdaDraw_ack (s : State) : s.afterSdaDraw.ack = s.ack := by
  unfold State.afterSdaDraw; split <;> rfl
@[simp] theorem State.afterSdaDraw_code (s : State) : s.afterSdaDraw.code = s.code := by
  unfold State.afterSdaDraw; split <;> rfl
@[simp] theorem State.afterSdaDraw_ovr (s : State) : s.afterSdaDraw.ovr = s.ovr := by
  unfold State.afterSdaDraw; split <;> rfl
@[simp] theorem State.afterSdaDraw_xcnt (s : State) : s.afterSdaDraw.xcnt = s.xcnt := by
  unfold State.afterSdaDraw; split <;> rfl
@[simp] theorem State.afterSdaDraw_curRow (s : State) : s.afterSdaDraw.curRow = s.curRow := by
  unfold State.afterSdaDraw; split <;> rfl
@[simp] theorem State.afterSdaDraw_curCol (s : State) : s.afterSdaDraw.curCol = s.curCol := by
  unfold State.afterSdaDraw; split <;> rfl
@[simp] theorem State.afterSdaDraw_wrow (s : State) : s.afterSdaDraw.wrow = s.wrow := by
  unfold State.afterSdaDraw; split <;> rfl
@[simp] theorem State.afterSdaDraw_wcol (s : State) : s.afterSdaDraw.wcol = s.wcol := by
  unfold State.afterSdaDraw; split <;> rfl
@[simp] theorem State.afterSdaDraw_gbuf0 (s : State) : s.afterSdaDraw.gbuf0 = s.gbuf0 := by
  unfold State.afterSdaDraw; split <;> rfl
@[simp] theorem State.afterSdaDraw_gbuf1 (s : State) : s.afterSdaDraw.gbuf1 = s.gbuf1 := by
  unfold State.afterSdaDraw; split <;> rfl
@[simp] theorem State.afterSdaDraw_gbuf2 (s : State) : s.afterSdaDraw.gbuf2 = s.gbuf2 := by
  unfold State.afterSdaDraw; split <;> rfl
@[simp] theorem State.afterSdaDraw_gbuf3 (s : State) : s.afterSdaDraw.gbuf3 = s.gbuf3 := by
  unfold State.afterSdaDraw; split <;> rfl
@[simp] theorem State.afterSdaDraw_gbuf4 (s : State) : s.afterSdaDraw.gbuf4 = s.gbuf4 := by
  unfold State.afterSdaDraw; split <;> rfl
@[simp] theorem State.afterSdaDraw_gbuf5 (s : State) : s.afterSdaDraw.gbuf5 = s.gbuf5 := by
  unfold State.afterSdaDraw; split <;> rfl
@[simp] theorem State.afterSdaDraw_sclOut (s : State) : s.afterSdaDraw.sclOut = s.sclOut := by
  unfold State.afterSdaDraw; split <;> rfl
@[simp] theorem State.afterSdaDraw_sdaOut (s : State) : s.afterSdaDraw.sdaOut = s.sdaOut := by
  unfold State.afterSdaDraw; split <;> rfl
@[simp] theorem State.afterSdaDraw_bus (s : State) : s.afterSdaDraw.bus = s.bus := by
  unfold State.afterSdaDraw; split <;> rfl
@[simp] theorem State.afterSdaDraw_sr (s : State) : s.afterSdaDraw.sr = s.sr := by
  unfold State.afterSdaDraw; split <;> rfl
@[simp] theorem State.afterSdaDraw_bitcnt (s : State) : s.afterSdaDraw.bitcnt = s.bitcnt := by
  unfold State.afterSdaDraw; split <;> rfl
@[simp] theorem State.afterSdaDraw_seq (s : State) : s.afterSdaDraw.seq = s.seq := by
  unfold State.afterSdaDraw; split <;> rfl
@[simp] theorem State.afterSdaDraw_params (s : State) : s.afterSdaDraw.params = s.params := by
  unfold State.afterSdaDraw; split <;> rfl
@[simp] theorem State.afterSdaDraw_trace (s : State) : s.afterSdaDraw.trace = s.trace := by
  unfold State.afterSdaDraw; split <;> rfl
@[simp] theorem State.afterSdaDraw_reads (s : State) : s.afterSdaDraw.reads = s.reads := by
  unfold State.afterSdaDraw; split <;> rfl
@[simp] theorem State.afterSdaDraw_inputs (s : State) : s.afterSdaDraw.inputs = s.inputs := by
  unfold State.afterSdaDraw; split <;> rfl
@[simp] theorem State.afterSdaDraw_envScl (s : State) : s.afterSdaDraw.envScl = s.envScl := by
  unfold State.afterSdaDraw; split <;> rfl
@[simp] theorem State.afterSdaDraw_envSda (s : State) : s.afterSdaDraw.envSda = s.envSda.tail := by
  unfold State.afterSdaDraw; split <;> simp_all
theorem State.afterSdaDraw_draws (s : State) : s.afterSdaDraw.draws = if s.envSda = [] then s.draws + 1 else s.draws := by
  unfold State.afterSdaDraw; split <;> simp_all

/-! ### The reset input (`resetBlock`, 70_reset_and_hazards.md R118). -/

@[simp] theorem State.resetBlock_data (s : State) : s.resetBlock.data = State.reset.data := rfl
@[simp] theorem State.resetBlock_ack (s : State) : s.resetBlock.ack = State.reset.ack := rfl
@[simp] theorem State.resetBlock_code (s : State) : s.resetBlock.code = State.reset.code := rfl
@[simp] theorem State.resetBlock_ovr (s : State) : s.resetBlock.ovr = State.reset.ovr := rfl
@[simp] theorem State.resetBlock_xcnt (s : State) : s.resetBlock.xcnt = State.reset.xcnt := rfl
@[simp] theorem State.resetBlock_curRow (s : State) : s.resetBlock.curRow = State.reset.curRow := rfl
@[simp] theorem State.resetBlock_curCol (s : State) : s.resetBlock.curCol = State.reset.curCol := rfl
@[simp] theorem State.resetBlock_wrow (s : State) : s.resetBlock.wrow = State.reset.wrow := rfl
@[simp] theorem State.resetBlock_wcol (s : State) : s.resetBlock.wcol = State.reset.wcol := rfl
@[simp] theorem State.resetBlock_gbuf0 (s : State) : s.resetBlock.gbuf0 = State.reset.gbuf0 := rfl
@[simp] theorem State.resetBlock_gbuf1 (s : State) : s.resetBlock.gbuf1 = State.reset.gbuf1 := rfl
@[simp] theorem State.resetBlock_gbuf2 (s : State) : s.resetBlock.gbuf2 = State.reset.gbuf2 := rfl
@[simp] theorem State.resetBlock_gbuf3 (s : State) : s.resetBlock.gbuf3 = State.reset.gbuf3 := rfl
@[simp] theorem State.resetBlock_gbuf4 (s : State) : s.resetBlock.gbuf4 = State.reset.gbuf4 := rfl
@[simp] theorem State.resetBlock_gbuf5 (s : State) : s.resetBlock.gbuf5 = State.reset.gbuf5 := rfl
@[simp] theorem State.resetBlock_sclOut (s : State) : s.resetBlock.sclOut = State.reset.sclOut := rfl
@[simp] theorem State.resetBlock_sdaOut (s : State) : s.resetBlock.sdaOut = State.reset.sdaOut := rfl
@[simp] theorem State.resetBlock_bus (s : State) : s.resetBlock.bus = State.reset.bus := rfl
@[simp] theorem State.resetBlock_sr (s : State) : s.resetBlock.sr = State.reset.sr := rfl
@[simp] theorem State.resetBlock_bitcnt (s : State) : s.resetBlock.bitcnt = State.reset.bitcnt := rfl
@[simp] theorem State.resetBlock_seq (s : State) : s.resetBlock.seq = State.reset.seq := rfl
@[simp] theorem State.resetBlock_params (s : State) : s.resetBlock.params = s.params := rfl
@[simp] theorem State.resetBlock_trace (s : State) : s.resetBlock.trace = State.reset.trace := rfl
@[simp] theorem State.resetBlock_reads (s : State) : s.resetBlock.reads = s.reads := rfl
@[simp] theorem State.resetBlock_inputs (s : State) : s.resetBlock.inputs = s.inputs := rfl
@[simp] theorem State.resetBlock_envScl (s : State) : s.resetBlock.envScl = s.envScl := rfl
@[simp] theorem State.resetBlock_envSda (s : State) : s.resetBlock.envSda = s.envSda := rfl
@[simp] theorem State.resetBlock_draws (s : State) : s.resetBlock.draws = s.draws := rfl

end Sys2Proof.Machine
end

