-- ==== Sys2Proof/Laws/Ops.lean ====
section
/-! SUPPORT. What the shared operations can do, said once: the views of the flags, `issue`, and the offsets of the
registers. -/

namespace Sys2Proof.Machine

/-- `BUSY` is 0 just when no command runs. -/
theorem State.busy_eq_false_iff (s : State) : s.busy = false ↔ s.seq = none := by
  simp [State.busy]

theorem State.busy_of_none {s : State} (h : s.seq = none) : s.busy = false := by simp [State.busy, h]

theorem State.busy_of_some {s : State} {k : List Micro} (h : s.seq = some k) : s.busy = true := by
  simp [State.busy, h]

theorem State.held_eq_true_iff (s : State) : s.held = true ↔ s.bus = .held := by
  unfold State.held; cases s.bus <;> simp

@[simp] theorem Reg.ofOffset_offset (r : Reg) : Reg.ofOffset r.offset = r := by cases r <;> rfl

/-- `issue` while a command runs. -/
theorem issue_of_busy {b : BusState} {p : List Micro} {s : State} (h : s.busy = true) :
    issue b p s = .next s.overrun := by simp [issue, h]

/-- `issue` in the bus state the command requires. -/
theorem issue_of_ready {b : BusState} {p : List Micro} {s : State} (h : s.seq = none) (hb : s.bus = b) :
    issue b p s = .next (s.accept p) := by simp [issue, State.busy, h, hb]

/-- `issue` in the other bus state. -/
theorem issue_of_wrong_state {b : BusState} {p : List Micro} {s : State} (h : s.seq = none) (hb : s.bus ≠ b) :
    issue b p s = .next (s.reject .state) := by simp [issue, State.busy, h, hb]

/-- All that `issue` can do. -/
theorem issue_cases (b : BusState) (p : List Micro) (s : State) :
    (s.busy = true ∧ issue b p s = .next s.overrun) ∨
    (s.seq = none ∧ s.bus = b ∧ issue b p s = .next (s.accept p)) ∨
    (s.seq = none ∧ s.bus ≠ b ∧ issue b p s = .next (s.reject .state)) := by
  cases hs : s.seq with
  | some k => exact .inl ⟨State.busy_of_some hs, issue_of_busy (State.busy_of_some hs)⟩
  | none =>
    by_cases hb : s.bus = b
    · exact .inr (.inl ⟨rfl, hb, issue_of_ready hs hb⟩)
    · exact .inr (.inr ⟨rfl, hb, issue_of_wrong_state hs hb⟩)

/-- An instruction's pseudocode as `issue` gets it, from the state at acceptance. -/
theorem exec_eq_issue (i : Instr) (s : State) : ∃ b p, exec i s = issue b p s := by
  cases i <;> exact ⟨_, _, rfl⟩

end Sys2Proof.Machine
end

