-- ==== Sys2Proof/Laws/Engine.lean ====
section
/-! SUPPORT. What a step of the engine does, by the step at the front of the pseudocode, and what it never touches. -/

namespace Sys2Proof.Machine

theorem engineStep_of_none {s : State} (h : s.seq = none) : engineStep s = s := by simp [engineStep, h]

theorem engineStep_of_nil {s : State} (h : s.seq = some []) : engineStep s = s.endCommand := by
  simp [engineStep, h]

theorem engineStep_of_cons {s : State} {m : Micro} {k : List Micro} (h : s.seq = some (m :: k)) :
    engineStep s = runMicro m k s := by simp [engineStep, h]

@[simp] theorem engineStep_goOn_cons (s : State) (m : Micro) (k : List Micro) :
    engineStep (s.goOn (m :: k)) = runMicro m k (s.goOn (m :: k)) := engineStep_of_cons rfl

/-- What one step of the pseudocode leaves alone, whichever it is: the operand registers but `DATA`, `ERR.OVR`, the
parameters, the host's moves and what the host has read (40_command_issue.md R68; 20_memory.md R53). -/
theorem runMicro_frame (m : Micro) (k : List Micro) (s : State) :
    (runMicro m k s).ovr = s.ovr ∧ (runMicro m k s).wrow = s.wrow ∧ (runMicro m k s).wcol = s.wcol ∧
    (runMicro m k s).params = s.params ∧ (runMicro m k s).inputs = s.inputs ∧ (runMicro m k s).reads = s.reads := by
  cases m <;> simp [runMicro, stepWaitScl, stepSample, stepOutLoop, stepInLoop, stepZeros] <;>
    (try split) <;> simp

theorem engineStep_frame (s : State) :
    (engineStep s).ovr = s.ovr ∧ (engineStep s).wrow = s.wrow ∧ (engineStep s).wcol = s.wcol ∧
    (engineStep s).params = s.params ∧ (engineStep s).inputs = s.inputs ∧ (engineStep s).reads = s.reads := by
  unfold engineStep
  split
  · simp
  · simp
  · exact runMicro_frame _ _ s

@[simp] theorem engineStep_inputs (s : State) : (engineStep s).inputs = s.inputs := (engineStep_frame s).2.2.2.2.1

@[simp] theorem engineStep_params (s : State) : (engineStep s).params = s.params := (engineStep_frame s).2.2.2.1

@[simp] theorem engineStep_reads (s : State) : (engineStep s).reads = s.reads := (engineStep_frame s).2.2.2.2.2

@[simp] theorem engineStep_ovr (s : State) : (engineStep s).ovr = s.ovr := (engineStep_frame s).1

/-- The engine reads neither `ERR.OVR` nor the host's moves nor what the host has read. -/
theorem engineStep_hostSide (s : State) (o : Bool) (r : List HostRead) (i : List Input) :
    engineStep { s with ovr := o, reads := r, inputs := i } =
      { engineStep s with ovr := o, reads := r, inputs := i } := by
  unfold engineStep
  cases hs : s.seq with
  | none => simp [hs]
  | some l =>
    cases l with
    | nil => simp [State.endCommand]
    | cons m k =>
      cases m <;> simp [runMicro, State.goOn, State.setScl, State.setSda, State.emit, State.abort, stepWaitScl, stepSample,
        stepOutLoop, stepInLoop, stepZeros, State.lineScl, State.lineSda, State.envSclDraw, State.envSdaDraw,
        State.afterSclDraw, State.afterSdaDraw] <;> (try split) <;> (try split) <;> simp_all

end Sys2Proof.Machine
end

