-- ==== Sys2Proof/Laws/Run.lean ====
section
/-! SUPPORT. Runs of the engine: one lemma for each procedure of the pseudocode, from a bit slot to whole transactions,
saying where it leads when the environment's levels are scripted (41_bus_engine.md R73 to R78). -/

namespace Sys2Proof.Machine

/-! ### Runs of the engine alone -/

/-- The engine goes from `s` to `f` in some number of its steps. -/
def Steps (s f : State) : Prop := ∃ n, engineStep^[n] s = f

theorem Steps.refl (s : State) : Steps s s := ⟨0, rfl⟩

theorem Steps.trans {s t u : State} (h : Steps s t) (h' : Steps t u) : Steps s u := by
  obtain ⟨n, rfl⟩ := h
  obtain ⟨m, rfl⟩ := h'
  exact ⟨m + n, Function.iterate_add_apply ..⟩

theorem Steps.of_step (s : State) : Steps s (engineStep s) := ⟨1, rfl⟩

/-- A first step and the rest of the run. -/
theorem Steps.head {s t u : State} (h : engineStep s = t) (h' : Steps t u) : Steps s u :=
  Steps.trans ⟨1, h⟩ h'

@[simp] theorem iterate_engineStep_inputs (n : Nat) (s : State) : (engineStep^[n] s).inputs = s.inputs := by
  induction n generalizing s with
  | zero => rfl
  | succ n ih => simp [ih]

/-- With no command running the engine stays where it is. -/
theorem iterate_engineStep_of_none {s : State} (h : s.seq = none) (n : Nat) : engineStep^[n] s = s := by
  induction n with
  | zero => rfl
  | succ n ih => rw [Function.iterate_succ_apply, engineStep_of_none h, ih]

/-- The engine's run reads neither `ERR.OVR` nor the host's moves nor what the host has read. -/
theorem iterate_engineStep_hostSide (n : Nat) (s : State) (o : Bool) (r : List HostRead) (i : List Input) :
    engineStep^[n] { s with ovr := o, reads := r, inputs := i } =
      { engineStep^[n] s with ovr := o, reads := r, inputs := i } := by
  induction n generalizing s with
  | zero => rfl
  | succ n ih => rw [Function.iterate_succ_apply, engineStep_hostSide, Function.iterate_succ_apply, ih]

/-- With no move of the host to come, a step of the machine is a step of the engine. -/
theorem step_of_no_inputs {s : State} (h : s.inputs = []) : step s = .next (engineStep s) := by
  simp [step, nextMove, h]

/-- A run whose first step answers a next state. -/
theorem run_succ_of_next {M : Host.Core} {s t : M.State} (h : M.step s = .next t) (n : Nat) :
    M.run (n + 1) s = M.run n t := by rw [Host.Core.run, h]

theorem run_of_no_inputs {s : State} (h : s.inputs = []) (n : Nat) :
    Host.Core.run Sys2Proof.core n s = .next (engineStep^[n] s) := by
  induction n generalizing s with
  | zero => rfl
  | succ n ih =>
    have hs : Sys2Proof.core.step s = .next (engineStep s) := step_of_no_inputs h
    rw [run_succ_of_next hs]
    exact ih (by simpa using h)

theorem Steps.runs {s f : State} (h : Steps s f) (hi : s.inputs = []) : Runs s f := by
  obtain ⟨n, rfl⟩ := h
  exact ⟨n, run_of_no_inputs hi n⟩

/-- What a run of the engine leaves alone: a view `fld` of the state that no step passing the check `P` changes, where the
steps that pass unfold into steps that pass. -/
theorem iterate_engineStep_keeps {α : Type} (fld : State → α) (P : Micro → Bool)
    (hP : ∀ m k s, s.seq = some (m :: k) → P m = true → k.all P = true →
      fld (runMicro m k s) = fld s ∧ ∀ k', (runMicro m k s).seq = some k' → k'.all P = true)
    (hE : ∀ s : State, fld s.endCommand = fld s) (n : Nat) (s : State) (k : List Micro) (hs : s.seq = some k)
    (hk : k.all P = true) : fld (engineStep^[n] s) = fld s := by
  induction n generalizing s k with
  | zero => rfl
  | succ n ih =>
    rw [Function.iterate_succ_apply]
    cases k with
    | nil => rw [engineStep_of_nil hs, iterate_engineStep_of_none rfl, hE]
    | cons m k =>
      rw [engineStep_of_cons hs]
      simp only [List.all_cons, Bool.and_eq_true] at hk
      obtain ⟨h1, h2⟩ := hP m k s hs hk.1 hk.2
      cases hq : (runMicro m k s).seq with
      | none => rw [iterate_engineStep_of_none hq, h1]
      | some k' => rw [ih _ k' hq (h2 k' hq), h1]

/-! ### Waiting for SCL -/

theorem afterReleases_succ (n : Nat) (es : List Level) :
    afterReleases (n + 1) es = afterReleases n (afterRelease es) := rfl

@[simp] theorem afterReleases_zero (es : List Level) : afterReleases 0 es = es := rfl

theorem afterReleases_add (m n : Nat) (es : List Level) :
    afterReleases (m + n) es = afterReleases m (afterReleases n es) := Function.iterate_add_apply ..

theorem count_afterRelease (es : List Level) : (afterRelease es).count true = es.count true - 1 := by
  induction es with
  | nil => rfl
  | cons e es ih => cases e <;> simp [afterRelease, ih]

theorem count_afterReleases (n : Nat) (es : List Level) :
    (afterReleases n es).count true = es.count true - n := by
  induction n generalizing es with
  | zero => rfl
  | succ n ih => rw [afterReleases_succ, ih, count_afterRelease]; omega

/-- `WaitSCLHigh()` with SCL released: it completes at the environment's next release (R73). -/
theorem steps_waitScl (s : State) (k : List Micro) (h : s.sclOut = true) (he : 1 ≤ s.envScl.count true) :
    Steps (s.goOn (.waitScl :: k))
      { s with envScl := afterRelease s.envScl, trace := .wait :: s.trace, seq := some k } := by
  obtain ⟨es, hes⟩ : ∃ es, s.envScl = es := ⟨_, rfl⟩
  induction es generalizing s with
  | nil => simp [hes] at he
  | cons e es ih =>
    cases e with
    | true =>
      refine Steps.head ?_ (Steps.refl _)
      rw [engineStep_goOn_cons]
      simp [runMicro, stepWaitScl, State.lineScl, State.envSclDraw, State.afterSclDraw, State.goOn, State.emit, hes, h,
        afterRelease]
    | false =>
      have := ih { s with envScl := es } h (by simpa [hes] using he) rfl
      rw [hes, afterRelease]
      refine Steps.head ?_ this
      rw [engineStep_goOn_cons]
      simp [runMicro, stepWaitScl, State.lineScl, State.envSclDraw, State.afterSclDraw, State.goOn, hes, h]

/-! ### A bit slot -/

/-- The state after `ClockBit(v)` where the environment's next level of SDA is `e`. -/
def State.slot (v e : Level) (s : State) : State :=
  { s with
    sdaOut := v, sclOut := false, envScl := afterRelease s.envScl, envSda := s.envSda.tail
    trace := (slotEvents v e).reverse ++ s.trace }

/-- `ClockBit(v)` and the return of its sample (R74). -/
theorem steps_clockBit (s : State) (v e : Level) (es : List Level) (use : SlotUse) (k : List Micro)
    (hd : s.envSda = e :: es) (hc : 1 ≤ s.envScl.count true) :
    Steps (s.goOn (clockBit v use ++ k)) ((s.slot v e).goOn (slotResult (v && e) use ++ k)) := by
  refine Steps.head (t := State.goOn (.hold .tLow :: .setScl true :: .waitScl :: .hold .tSu :: .sample use :: k)
    { s with sdaOut := v, trace := .sda v :: s.trace }) rfl ?_
  refine Steps.head rfl (Steps.head rfl ?_)
  refine Steps.trans (steps_waitScl (k := .hold .tSu :: .sample use :: k)
    { s with sdaOut := v, sclOut := true, trace := .scl true :: .sda v :: s.trace } rfl hc) ?_
  refine Steps.head (t := State.goOn (.sample use :: k)
    { s with sdaOut := v, sclOut := true, envScl := afterRelease s.envScl,
             trace := .wait :: .scl true :: .sda v :: s.trace }) rfl ?_
  refine Steps.head (t := State.goOn (.hold .tHighRest :: .setScl false :: slotResult (v && e) use ++ k)
    { s with sdaOut := v, sclOut := true, envScl := afterRelease s.envScl, envSda := es,
             trace := .sample (v && e) :: .wait :: .scl true :: .sda v :: s.trace }) ?_ ?_
  · rw [engineStep_goOn_cons]
    simp [runMicro, stepSample, State.lineSda, State.envSdaDraw, State.afterSdaDraw, State.goOn, State.emit, hd,
      afterSample]
  · refine Steps.head rfl (Steps.head rfl ?_)
    have : (s.slot v e).goOn (slotResult (v && e) use ++ k) =
        State.goOn (slotResult (v && e) use ++ k)
          { s with sdaOut := v, sclOut := false, envScl := afterRelease s.envScl, envSda := es,
                   trace := .scl false :: .sample (v && e) :: .wait :: .scl true :: .sda v :: s.trace } := by
      simp [State.slot, State.goOn, slotEvents, hd]
    rw [this]
    exact Steps.refl _

/-! ### The loops of `ShiftOut` and `ShiftIn` -/

/-- The state after a data slot that drives `v`. -/
def State.dataSlot (v e : Level) (s : State) : State :=
  { s.slot v e with sr := shiftIn s.sr (v && e), bitcnt := s.bitcnt - 1 }

theorem steps_dataSlot (s : State) (v e : Level) (es : List Level) (k : List Micro)
    (hd : s.envSda = e :: es) (hc : 1 ≤ s.envScl.count true) :
    Steps (s.goOn (clockBit v .shift ++ k)) ((s.dataSlot v e).goOn k) :=
  (steps_clockBit s v e es .shift k hd hc).trans (Steps.head rfl (Steps.head rfl (Steps.refl _)))

/-- The slots of `ShiftOut`'s loop, one for each level of the environment. -/
def State.outSlots : List Level → State → State
  | [], s      => s
  | e :: es, s => State.outSlots es (s.dataSlot s.sr.msb e)

/-- The slots of `ShiftIn`'s loop. -/
def State.inSlots : List Level → State → State
  | [], s      => s
  | e :: es, s => State.inSlots es (s.dataSlot true e)

theorem steps_outLoop (ds rest : List Level) (s : State) (k : List Micro) (hn : s.bitcnt.toNat = ds.length)
    (hd : s.envSda = ds ++ rest) (hc : ds.length ≤ s.envScl.count true) :
    Steps (s.goOn (.outLoop :: k)) ((s.outSlots ds).goOn k) := by
  induction ds generalizing s with
  | nil =>
    refine Steps.head ?_ (Steps.refl _)
    have : s.bitcnt = 0 := BitVec.eq_of_toNat_eq hn
    rw [engineStep_goOn_cons]
    simp [runMicro, stepOutLoop, this, State.outSlots, State.goOn]
  | cons e es ih =>
    simp only [List.length_cons] at hn hc
    have hne : ¬ s.bitcnt = 0#4 := by rintro h; simp [h] at hn
    refine Steps.head (t := s.goOn (clockBit s.sr.msb .shift ++ .outLoop :: k)) ?_ ?_
    · rw [engineStep_goOn_cons]
      simp [runMicro, stepOutLoop, hne, State.goOn]
    · refine (steps_dataSlot s s.sr.msb e (es ++ rest) _ hd (by omega)).trans ?_
      refine ih (s.dataSlot s.sr.msb e) ?_ (by simp [State.dataSlot, State.slot, hd]) ?_
      · have := s.bitcnt.isLt
        simp [State.dataSlot, BitVec.toNat_sub]; omega
      · simp [State.dataSlot, State.slot, count_afterRelease]; omega

theorem steps_inLoop (ds rest : List Level) (s : State) (k : List Micro) (hn : s.bitcnt.toNat = ds.length)
    (hd : s.envSda = ds ++ rest) (hc : ds.length ≤ s.envScl.count true) :
    Steps (s.goOn (.inLoop :: k)) ((s.inSlots ds).goOn k) := by
  induction ds generalizing s with
  | nil =>
    refine Steps.head ?_ (Steps.refl _)
    have : s.bitcnt = 0 := BitVec.eq_of_toNat_eq hn
    rw [engineStep_goOn_cons]
    simp [runMicro, stepInLoop, this, State.inSlots, State.goOn]
  | cons e es ih =>
    simp only [List.length_cons] at hn hc
    have hne : ¬ s.bitcnt = 0#4 := by rintro h; simp [h] at hn
    refine Steps.head (t := s.goOn (clockBit true .shift ++ .inLoop :: k)) ?_ ?_
    · rw [engineStep_goOn_cons]
      simp [runMicro, stepInLoop, hne, State.goOn]
    · refine (steps_dataSlot s true e (es ++ rest) _ hd (by omega)).trans ?_
      refine ih (s.dataSlot true e) ?_ (by simp [State.dataSlot, State.slot, hd]) ?_
      · have := s.bitcnt.isLt
        simp [State.dataSlot, BitVec.toNat_sub]; omega
      · simp [State.dataSlot, State.slot, count_afterRelease]; omega

end Sys2Proof.Machine
end

