-- ==== Sys2Proof/Laws/Bytes.lean ====
section
/-! SUPPORT. Where the engine gets to after a whole byte and after conditions: `Wr`, `ShiftIn`, an acknowledge slot,
`StartCond` and `StopCond` (41_bus_engine.md R75 to R82). -/

namespace Sys2Proof.Machine

/-! ### The shift register -/

theorem shiftIn_getLsbD_succ (sr : Byte) (x : Level) (i : Nat) (hi : i < 7) :
    (shiftIn sr x).getLsbD (i + 1) = sr.getLsbD i :=
  (BitVec.getLsbD_append (x := sr.setWidth 7) (y := BitVec.ofBool x) (i := i + 1)).trans (by simp [hi])

theorem shiftIn_getLsbD_zero (sr : Byte) (x : Level) : (shiftIn sr x).getLsbD 0 = x :=
  (BitVec.getLsbD_append (x := sr.setWidth 7) (y := BitVec.ofBool x) (i := 0)).trans (by simp)

theorem shiftIn_getMsbD (sr : Byte) (x : Level) (i : Nat) (hi : i < 7) :
    (shiftIn sr x).getMsbD i = sr.getMsbD (i + 1) := by
  rw [BitVec.getMsbD_eq_getLsbD, BitVec.getMsbD_eq_getLsbD]
  have h1 : 8 - 1 - i = (6 - i) + 1 := by omega
  have h2 : 8 - 1 - (i + 1) = 6 - i := by omega
  rw [h1, h2, shiftIn_getLsbD_succ _ _ _ (by omega)]
  simp [show i < 8 by omega, show i + 1 < 8 by omega]

/-- The shift register after `ShiftOut` of `b` (R75). -/
def shiftedOut (b : Byte) (ds : List Level) : Byte := ds.foldl (fun sr e => shiftIn sr (sr.msb && e)) b

/-- The shift register after `ShiftIn` (R76). -/
def shiftedIn (sr : Byte) (ds : List Level) : Byte := ds.foldl (fun sr e => shiftIn sr e) sr

/-- The events of `ShiftOut`'s slots, read off the shift register. -/
def outEvents : Byte → List Level → List LineEvent
  | _, []      => []
  | b, e :: es => slotEvents b.msb e ++ outEvents (shiftIn b (b.msb && e)) es

theorem outEvents_eq_flatMap (b : Byte) (ds : List Level) (h : ds.length ≤ 8) :
    outEvents b ds = (List.range ds.length).flatMap (fun i => slotEvents (b.getMsbD i) (ds.getD i true)) := by
  induction ds generalizing b with
  | nil => rfl
  | cons e es ih =>
    have hl : es.length ≤ 7 := by simp only [List.length_cons] at h; omega
    rw [List.length_cons, List.range_succ_eq_map, List.flatMap_cons, List.flatMap_map, outEvents, ih _ (by omega)]
    refine congrArg₂ _ ?_ ?_
    · simp [BitVec.msb]
    · refine List.flatMap_congr fun i hi => ?_
      have : i < 7 := by have := List.mem_range.1 hi; omega
      simp [shiftIn_getMsbD _ _ _ this]

/-- All that the slots of `ShiftOut` change. -/
theorem outSlots_eq (ds rest : List Level) (s : State) (hd : s.envSda = ds ++ rest) :
    s.outSlots ds =
      { s with
        sdaOut := (s.outSlots ds).sdaOut, sclOut := (s.outSlots ds).sclOut, sr := shiftedOut s.sr ds
        bitcnt := s.bitcnt - BitVec.ofNat 4 ds.length, envScl := afterReleases ds.length s.envScl, envSda := rest
        trace := (outEvents s.sr ds).reverse ++ s.trace } := by
  induction ds generalizing s with
  | nil => simp only [List.nil_append] at hd; subst hd; simp [State.outSlots, shiftedOut, outEvents]
  | cons e es ih =>
    rw [State.outSlots, ih _ (by simp [State.dataSlot, State.slot, hd])]
    simp only [State.dataSlot, State.slot, shiftedOut, outEvents, List.foldl_cons, List.length_cons, List.reverse_append,
      List.append_assoc, afterReleases_succ]
    congr 1
    rw [BitVec.sub_sub]
    congr 1
    apply BitVec.eq_of_toNat_eq
    simp [BitVec.toNat_add, BitVec.toNat_ofNat]; omega

theorem inSlots_eq (ds rest : List Level) (s : State) (hd : s.envSda = ds ++ rest) :
    s.inSlots ds =
      { s with
        sdaOut := (s.inSlots ds).sdaOut, sclOut := (s.inSlots ds).sclOut, sr := shiftedIn s.sr ds
        bitcnt := s.bitcnt - BitVec.ofNat 4 ds.length, envScl := afterReleases ds.length s.envScl, envSda := rest
        trace := (ds.flatMap (slotEvents true)).reverse ++ s.trace } := by
  induction ds generalizing s with
  | nil => simp only [List.nil_append] at hd; subst hd; simp [State.inSlots, shiftedIn]
  | cons e es ih =>
    rw [State.inSlots, ih _ (by simp [State.dataSlot, State.slot, hd])]
    simp only [State.dataSlot, State.slot, shiftedIn, List.foldl_cons, List.length_cons, List.reverse_append,
      List.append_assoc, afterReleases_succ, List.flatMap_cons, Bool.true_and]
    congr 1
    rw [BitVec.sub_sub]
    congr 1
    apply BitVec.eq_of_toNat_eq
    simp [BitVec.toNat_add, BitVec.toNat_ofNat]; omega

theorem inSlots_drivers (e : Level) (es : List Level) (s : State) :
    (s.inSlots (e :: es)).sdaOut = true ∧ (s.inSlots (e :: es)).sclOut = false := by
  induction es generalizing s e with
  | nil => exact ⟨rfl, rfl⟩
  | cons e' es ih => exact ih e' (s.dataSlot true e)

/-! ### An acknowledge slot -/

/-- An acknowledge slot at level `v`, up to the caller's use of its bit (R77). -/
theorem steps_ackSlot (s : State) (v e : Level) (es : List Level) (use : SlotUse) (k : List Micro)
    (hd : s.envSda = e :: es) (hc : 1 ≤ s.envScl.count true) :
    Steps (s.goOn (ackSlot v use ++ k))
      (State.goOn (slotResult (v && e) use ++ k)
        { s with
          bitcnt := 1, sdaOut := v, sclOut := false, envScl := afterRelease s.envScl, envSda := es
          trace := (slotEvents v e).reverse ++ s.trace }) := by
  refine Steps.head (t := State.goOn (clockBit v use ++ k) { s with bitcnt := 1 }) rfl ?_
  refine (steps_clockBit { s with bitcnt := 1 } v e es use k hd hc).trans ?_
  rw [State.slot, hd]
  exact Steps.refl _

/-! ### `Wr` -/

/-- The state after the nine slots of `Wr(b)`, before its check (R78). -/
def State.sent (b : Byte) (s : State) : State :=
  { s with
    sdaOut := true, sclOut := false, sr := shiftedOut b (s.envSda.take 8), bitcnt := 0
    ack := ackOf (s.envSda.getD 8 true), envScl := afterReleases 9 s.envScl, envSda := s.envSda.drop 9
    trace := (byteEvents b s.envSda).reverse ++ s.trace }

theorem steps_wr (s : State) (b : Byte) (k : List Micro) (hd : s.slots 9) (hc : s.releases 9) :
    Steps (s.goOn (.wr b :: k)) ((s.sent b).goOn (.abortIf (s.envSda.getD 8 true) :: .countByte :: k)) := by
  obtain ⟨ds, e, es, hl, hs⟩ : ∃ ds e es, ds.length = 8 ∧ s.envSda = ds ++ e :: es := by
    have h9 : 8 < s.envSda.length := hd
    refine ⟨s.envSda.take 8, s.envSda[8], s.envSda.drop 9, ?_, ?_⟩
    · simp; omega
    · rw [List.cons_getElem_drop_succ, List.take_append_drop]
  have hc : 9 ≤ s.envScl.count true := hc
  refine Steps.head (t := s.goOn (wrBody b ++ k)) rfl ?_
  refine Steps.head rfl (Steps.head rfl ?_)
  refine (steps_outLoop ds (e :: es) { s with sr := b, bitcnt := 8 } (ackSlot true .ackOfSent ++ k) (by simp [hl]) hs
    (by rw [hl]; exact le_trans (by norm_num) hc)).trans ?_
  rw [outSlots_eq ds (e :: es) { s with sr := b, bitcnt := 8 } hs]
  refine (steps_ackSlot _ true e es .ackOfSent k rfl ?_).trans ?_
  · rw [count_afterReleases, hl]
    exact Nat.le_sub_of_add_le (le_trans (by norm_num) hc)
  · have h8 : s.envSda.getD 8 true = e := by rw [hs]; simp [← hl]
    have hsent : s.sent b =
        { s with
          sdaOut := true, sclOut := false, sr := shiftedOut b ds, bitcnt := 0, ack := ackOf e
          envScl := afterRelease (afterReleases ds.length s.envScl), envSda := es
          trace := (slotEvents true e).reverse ++ ((outEvents b ds).reverse ++ s.trace) } := by
      have ht : s.envSda.take 8 = ds := by rw [hs, ← hl]; simp
      have hdr : s.envSda.drop 9 = es := by rw [hs, show 9 = ds.length + 1 by omega]; simp
      have hb : byteEvents b s.envSda = outEvents b ds ++ slotEvents true e := by
        rw [byteEvents, h8, outEvents_eq_flatMap b ds (by omega), hl]
        refine congrArg (· ++ _) (List.flatMap_congr fun i hi => ?_)
        have : i < ds.length := by have := List.mem_range.1 hi; omega
        simp [hs, List.getD_eq_getElem?_getD, List.getElem?_append_left this]
      simp only [State.sent, ht, hdr, h8, hb, hl, List.reverse_append, List.append_assoc]
      rfl
    rw [h8, hsent]
    exact Steps.head rfl (Steps.head rfl (Steps.refl _))

/-- A byte that is acknowledged is counted and the command goes on (R78). -/
theorem steps_wr_acked (s : State) (b : Byte) (k : List Micro) (hd : s.slots 9) (hc : s.releases 9)
    (ha : s.byteAcked 0) :
    Steps (s.goOn (.wr b :: k)) (State.goOn k { s.sent b with xcnt := s.xcnt + 1 }) := by
  have h8 : s.envSda.getD 8 true = false := by
    have : s.envSda[8]? = some false := ha
    simp [List.getD_eq_getElem?_getD, this]
  refine (steps_wr s b k hd hc).trans ?_
  rw [h8]
  exact Steps.head rfl (Steps.head rfl (Steps.refl _))

/-- A byte that is not acknowledged aborts the command (R78, 60_exceptions.md R107). -/
theorem steps_wr_nacked (s : State) (b : Byte) (k : List Micro) (hd : s.slots 9) (hc : s.releases 9)
    (ha : s.byteNacked 0) :
    Steps (s.goOn (.wr b :: k)) { s.sent b with seq := none, code := .nack } := by
  have h8 : s.envSda.getD 8 true = true := by
    have : s.envSda[8]? = some true := ha
    simp [List.getD_eq_getElem?_getD, this]
  refine (steps_wr s b k hd hc).trans ?_
  rw [h8]
  exact Steps.head rfl (Steps.head rfl (Steps.head rfl (Steps.refl _)))

/-! ### `ShiftIn` -/

/-- `ShiftIn()` (R76). -/
theorem steps_shiftIn (s : State) (ds rest : List Level) (k : List Micro) (hl : ds.length = 8)
    (hd : s.envSda = ds ++ rest) (hc : s.releases 8) :
    Steps (s.goOn (shiftInByte ++ k))
      (State.goOn k
        { s with
          sdaOut := true, sclOut := false, sr := shiftedIn s.sr ds, bitcnt := 0
          envScl := afterReleases 8 s.envScl, envSda := rest
          trace := (ds.flatMap (slotEvents true)).reverse ++ s.trace }) := by
  refine Steps.head (t := State.goOn (.inLoop :: k) { s with bitcnt := 8 }) rfl ?_
  refine (steps_inLoop ds rest { s with bitcnt := 8 } k (by simp [hl]) hd (by rw [hl]; exact hc)).trans ?_
  obtain ⟨d0, d1, d2, d3, d4, d5, d6, d7, rfl⟩ :
      ∃ d0 d1 d2 d3 d4 d5 d6 d7, ds = [d0, d1, d2, d3, d4, d5, d6, d7] := by
    match ds, hl with
    | [d0, d1, d2, d3, d4, d5, d6, d7], _ => exact ⟨d0, d1, d2, d3, d4, d5, d6, d7, rfl⟩
  rw [inSlots_eq _ rest { s with bitcnt := 8 } hd]
  simp only [(inSlots_drivers d0 [d1, d2, d3, d4, d5, d6, d7] { s with bitcnt := 8 }).1,
    (inSlots_drivers d0 [d1, d2, d3, d4, d5, d6, d7] { s with bitcnt := 8 }).2,
    show (8 : BitVec 4) - BitVec.ofNat 4 [d0, d1, d2, d3, d4, d5, d6, d7].length = 0 by simp]
  exact Steps.refl _

theorem shiftedIn_getMsbD (sr : Byte) (ds : List Level) (hl : ds.length = 8) (i : Nat) (hi : i < 8) :
    (shiftedIn sr ds).getMsbD i = ds.getD i true := by
  obtain ⟨d0, d1, d2, d3, d4, d5, d6, d7, rfl⟩ :
      ∃ d0 d1 d2 d3 d4 d5 d6 d7, ds = [d0, d1, d2, d3, d4, d5, d6, d7] := by
    match ds, hl with
    | [d0, d1, d2, d3, d4, d5, d6, d7], _ => exact ⟨d0, d1, d2, d3, d4, d5, d6, d7, rfl⟩
  have hz (b : Byte) (x : Level) : (shiftIn b x).getMsbD 7 = x := by
    rw [BitVec.getMsbD_eq_getLsbD]
    simpa using shiftIn_getLsbD_zero b x
  have hcase : i = 0 ∨ i = 1 ∨ i = 2 ∨ i = 3 ∨ i = 4 ∨ i = 5 ∨ i = 6 ∨ i = 7 := by omega
  rcases hcase with h | h | h | h | h | h | h | h <;> subst h <;>
    simp [shiftedIn, shiftIn_getMsbD, hz]

/-! ### Start and stop conditions -/

/-- The state after `StartCond()` (R81, R86). -/
def State.started (s : State) : State :=
  { s with
    sdaOut := false, sclOut := false, bus := .held, envScl := afterRelease s.envScl
    trace := startEvents.reverse ++ s.trace }

theorem steps_startCond (s : State) (k : List Micro) (h : s.sclOut = true) (hc : s.releases 1) :
    Steps (s.goOn (startCond ++ k)) (s.started.goOn k) := by
  refine (steps_waitScl s (.hold .tSu :: .setSda false :: .hold .tHigh :: .setScl false :: .setBus .held :: k) h hc).trans ?_
  refine Steps.head (t := State.goOn (.setSda false :: .hold .tHigh :: .setScl false :: .setBus .held :: k)
    { s with envScl := afterRelease s.envScl, trace := .wait :: s.trace }) rfl ?_
  refine Steps.head (t := State.goOn (.hold .tHigh :: .setScl false :: .setBus .held :: k)
    { s with sdaOut := false, envScl := afterRelease s.envScl, trace := .sda false :: .wait :: s.trace }) rfl ?_
  refine Steps.head (t := State.goOn (.setScl false :: .setBus .held :: k)
    { s with sdaOut := false, envScl := afterRelease s.envScl, trace := .sda false :: .wait :: s.trace }) rfl ?_
  refine Steps.head (t := State.goOn (.setBus .held :: k)
    { s with sdaOut := false, sclOut := false, envScl := afterRelease s.envScl,
             trace := .scl false :: .sda false :: .wait :: s.trace }) rfl ?_
  exact Steps.head rfl (Steps.refl _)

/-- The state after `StopCond()` (R82, R86). -/
def State.stopped (s : State) : State :=
  { s with
    sdaOut := true, sclOut := true, bus := .idle, envScl := afterRelease s.envScl
    trace := stopEvents.reverse ++ s.trace }

theorem steps_stopCond (s : State) (k : List Micro) (hc : s.releases 1) :
    Steps (s.goOn (stopCond ++ k)) (s.stopped.goOn k) := by
  refine Steps.head (t := State.goOn (.hold .tLow :: .setScl true :: .waitScl :: .hold .tSu :: .setSda true :: .hold .tLow ::
    .setBus .idle :: k) { s with sdaOut := false, trace := .sda false :: s.trace }) rfl ?_
  refine Steps.head (t := State.goOn (.setScl true :: .waitScl :: .hold .tSu :: .setSda true :: .hold .tLow ::
    .setBus .idle :: k) { s with sdaOut := false, trace := .sda false :: s.trace }) rfl ?_
  refine Steps.head (t := State.goOn (.waitScl :: .hold .tSu :: .setSda true :: .hold .tLow :: .setBus .idle :: k)
    { s with sdaOut := false, sclOut := true, trace := .scl true :: .sda false :: s.trace }) rfl ?_
  refine (steps_waitScl { s with sdaOut := false, sclOut := true, trace := .scl true :: .sda false :: s.trace }
    (.hold .tSu :: .setSda true :: .hold .tLow :: .setBus .idle :: k) rfl hc).trans ?_
  refine Steps.head (t := State.goOn (.setSda true :: .hold .tLow :: .setBus .idle :: k)
    { s with sdaOut := false, sclOut := true, envScl := afterRelease s.envScl,
             trace := .wait :: .scl true :: .sda false :: s.trace }) rfl ?_
  refine Steps.head (t := State.goOn (.hold .tLow :: .setBus .idle :: k)
    { s with sdaOut := true, sclOut := true, envScl := afterRelease s.envScl,
             trace := .sda true :: .wait :: .scl true :: .sda false :: s.trace }) rfl ?_
  refine Steps.head (t := State.goOn (.setBus .idle :: k)
    { s with sdaOut := true, sclOut := true, envScl := afterRelease s.envScl,
             trace := .sda true :: .wait :: .scl true :: .sda false :: s.trace }) rfl ?_
  exact Steps.head rfl (Steps.refl _)

/-! ### The normal end -/

/-- After the last step of its pseudocode a command records OK and ends (40_command_issue.md R69). -/
theorem steps_normalEnd (s : State) : Steps (s.goOn [.setCode .ok]) { s with seq := none, code := .ok } :=
  Steps.head rfl (Steps.head rfl (Steps.refl _))

end Sys2Proof.Machine
end

