-- ==== Sys2Proof/Laws/Transactions.lean ====
section
/-! SUPPORT. Where the engine gets to after several bytes and after whole transactions, when every byte is acknowledged
and when one is not (42_display_controller.md R87 to R97). -/

namespace Sys2Proof.Machine

/-! ### Several bytes -/

/-- The state after the bytes `bs`, each acknowledged (R78). -/
def State.sentAll : List Byte → State → State
  | [], s      => s
  | b :: bs, s => State.sentAll bs { s.sent b with xcnt := s.xcnt + 1 }

theorem sentAll_append (as bs : List Byte) (s : State) : s.sentAll (as ++ bs) = (s.sentAll as).sentAll bs := by
  induction as generalizing s with
  | nil => rfl
  | cons a as ih => exact ih _

/-- All that the bytes change. -/
theorem sentAll_eq (bs : List Byte) (s : State) :
    s.sentAll bs =
      { s with
        sdaOut := (s.sentAll bs).sdaOut, sclOut := (s.sentAll bs).sclOut, sr := (s.sentAll bs).sr
        bitcnt := (s.sentAll bs).bitcnt, ack := (s.sentAll bs).ack, xcnt := s.xcnt + BitVec.ofNat 16 bs.length
        envScl := afterReleases (9 * bs.length) s.envScl, envSda := s.envSda.drop (9 * bs.length)
        trace := (bytesEvents bs s.envSda).reverse ++ s.trace } := by
  induction bs generalizing s with
  | nil => simp [State.sentAll, bytesEvents]
  | cons b bs ih =>
    rw [State.sentAll, ih]
    simp only [State.sent, bytesEvents, List.length_cons, List.drop_drop, List.reverse_append, List.append_assoc,
      ← afterReleases_add]
    congr 1
    · rw [BitVec.add_assoc]
      congr 1
      apply BitVec.eq_of_toNat_eq
      simp [BitVec.toNat_add, BitVec.toNat_ofNat]; omega
    · congr 1; omega

theorem sentAll_drivers (b : Byte) (bs : List Byte) (s : State) :
    (s.sentAll (b :: bs)).sdaOut = true ∧ (s.sentAll (b :: bs)).sclOut = false ∧ (s.sentAll (b :: bs)).bitcnt = 0 := by
  induction bs generalizing s b with
  | nil => exact ⟨rfl, rfl, rfl⟩
  | cons b' bs ih => exact ih b' _

theorem sentAll_envSda (bs : List Byte) (s : State) : (s.sentAll bs).envSda = s.envSda.drop (9 * bs.length) := by
  rw [sentAll_eq]

theorem sentAll_envScl (bs : List Byte) (s : State) :
    (s.sentAll bs).envScl = afterReleases (9 * bs.length) s.envScl := by rw [sentAll_eq]

theorem State.byteAcked.slots {s : State} {j : Nat} (h : s.byteAcked j) : s.slots (9 * (j + 1)) := by
  obtain ⟨h, -⟩ := List.getElem?_eq_some_iff.1 h
  simp only [State.slots]; omega

theorem State.byteNacked.slots {s : State} {j : Nat} (h : s.byteNacked j) : s.slots (9 * (j + 1)) := by
  obtain ⟨h, -⟩ := List.getElem?_eq_some_iff.1 h
  simp only [State.slots]; omega

theorem byteAcked_sentAll {s : State} {j : Nat} (bs : List Byte) (h : s.byteAcked (bs.length + j)) :
    (s.sentAll bs).byteAcked j := by
  simp only [State.byteAcked, sentAll_envSda, List.getElem?_drop] at *
  rw [← h]; congr 1; omega

theorem byteNacked_sentAll {s : State} {j : Nat} (bs : List Byte) (h : s.byteNacked (bs.length + j)) :
    (s.sentAll bs).byteNacked j := by
  simp only [State.byteNacked, sentAll_envSda, List.getElem?_drop] at *
  rw [← h]; congr 1; omega

theorem releases_sentAll {s : State} {n : Nat} (bs : List Byte) (h : s.releases (9 * bs.length + n)) :
    (s.sentAll bs).releases n := by
  simp only [State.releases, sentAll_envScl, count_afterReleases] at *
  omega

theorem State.releases.mono {s : State} {m n : Nat} (h : s.releases n) (hmn : m ≤ n) : s.releases m :=
  Nat.le_trans hmn h

/-- The last acknowledge is what `STATUS.ACK` shows (10_state.md R25). -/
theorem sentAll_ack {s : State} {bs : List Byte} (hne : bs ≠ []) (h : ∀ j < bs.length, s.byteAcked j) :
    (s.sentAll bs).ack = true := by
  obtain ⟨as, b, rfl⟩ : ∃ as b, bs = as ++ [b] := ⟨_, _, (List.dropLast_append_getLast hne).symm⟩
  rw [sentAll_append]
  have hb : (s.sentAll as).byteAcked 0 := byteAcked_sentAll as (h _ (by simp))
  have h8 : (s.sentAll as).envSda[8]? = some false := hb
  simp [State.sentAll, State.sent, ackOf, List.getD_eq_getElem?_getD, h8]

theorem steps_bytes_acked (bs : List Byte) (s : State) (k : List Micro) (h : ∀ j < bs.length, s.byteAcked j)
    (hc : s.releases (9 * bs.length)) :
    Steps (s.goOn (bs.map .wr ++ k)) ((s.sentAll bs).goOn k) := by
  induction bs generalizing s with
  | nil => exact Steps.refl _
  | cons b bs ih =>
    simp only [List.length_cons] at h hc
    have h0 := h 0 (by omega)
    refine (steps_wr_acked s b (bs.map .wr ++ k) (h0.slots) (hc.mono (by omega)) h0).trans ?_
    refine ih _ (fun j hj => ?_) ?_
    · exact byteAcked_sentAll (s := s) [b] (by simpa [Nat.add_comm] using h (j + 1) (by omega))
    · exact releases_sentAll (s := s) [b] (hc.mono (by simp; omega))

/-- The state after a byte that was not acknowledged: the command is over (60_exceptions.md R107). -/
def State.failedAt (b : Byte) (s : State) : State := { s.sent b with seq := none, code := .nack }

theorem steps_bytes_nacked (as : List Byte) (b : Byte) (cs : List Micro) (s : State)
    (h : ∀ j < as.length, s.byteAcked j) (hn : s.byteNacked as.length) (hc : s.releases (9 * (as.length + 1))) :
    Steps (s.goOn (as.map .wr ++ .wr b :: cs)) ((s.sentAll as).failedAt b) := by
  refine (steps_bytes_acked as s _ h (hc.mono (by omega))).trans ?_
  have hn' : (s.sentAll as).byteNacked 0 := byteNacked_sentAll as hn
  exact steps_wr_nacked _ b cs hn'.slots (releases_sentAll as (hc.mono (by omega))) hn'

/-! ### The zeros of CLEAR -/

theorem steps_zeros_acked (n : Nat) (s : State) (k : List Micro) (h : ∀ j < n, s.byteAcked j)
    (hc : s.releases (9 * n)) :
    Steps (s.goOn (.zeros n :: k)) ((s.sentAll (List.replicate n 0)).goOn k) := by
  induction n generalizing s with
  | zero => exact Steps.head rfl (Steps.refl _)
  | succ n ih =>
    refine Steps.head (t := s.goOn (.wr 0x00 :: .zeros n :: k)) rfl ?_
    have h0 := h 0 (by omega)
    refine (steps_wr_acked s 0 (.zeros n :: k) h0.slots (hc.mono (by omega)) h0).trans ?_
    refine ih _ (fun j hj => ?_) ?_
    · exact byteAcked_sentAll (s := s) [0] (by simpa [Nat.add_comm] using h (j + 1) (by omega))
    · exact releases_sentAll (s := s) [0] (hc.mono (by simp; omega))

theorem steps_zeros_nacked (j n : Nat) (s : State) (k : List Micro) (hj : j < n) (h : ∀ i < j, s.byteAcked i)
    (hn : s.byteNacked j) (hc : s.releases (9 * (j + 1))) :
    Steps (s.goOn (.zeros n :: k)) ((s.sentAll (List.replicate j 0)).failedAt 0) := by
  induction j generalizing s n with
  | zero =>
    obtain ⟨n, rfl⟩ : ∃ m, n = m + 1 := ⟨n - 1, by omega⟩
    refine Steps.head (t := s.goOn (.wr 0x00 :: .zeros n :: k)) rfl ?_
    exact steps_wr_nacked s 0 _ hn.slots hc hn
  | succ j ih =>
    obtain ⟨n, rfl⟩ : ∃ m, n = m + 1 := ⟨n - 1, by omega⟩
    refine Steps.head (t := s.goOn (.wr 0x00 :: .zeros n :: k)) rfl ?_
    have h0 := h 0 (by omega)
    refine (steps_wr_acked s 0 (.zeros n :: k) h0.slots (hc.mono (by omega)) h0).trans ?_
    refine ih n _ (by omega) (fun i hi => ?_) ?_ ?_
    · exact byteAcked_sentAll (s := s) [0] (by simpa [Nat.add_comm] using h (i + 1) (by omega))
    · exact byteNacked_sentAll (s := s) [0] (by simpa [Nat.add_comm] using hn)
    · exact releases_sentAll (s := s) [0] (hc.mono (by simp; omega))

/-! ### A whole transaction -/

theorem byteAcked_started {s : State} {j : Nat} : s.started.byteAcked j ↔ s.byteAcked j := Iff.rfl

theorem byteNacked_started {s : State} {j : Nat} : s.started.byteNacked j ↔ s.byteNacked j := Iff.rfl

theorem releases_started {s : State} {n : Nat} (h : s.releases (n + 1)) : s.started.releases n := by
  simp only [State.releases, State.started, count_afterRelease] at *
  omega

theorem releases_stopped {s : State} {n : Nat} (h : s.releases (n + 1)) : s.stopped.releases n := by
  simp only [State.releases, State.stopped, count_afterRelease] at *
  omega

/-- The state after a whole transaction whose bytes were all acknowledged. -/
def State.transacted (bs : List Byte) (s : State) : State := (s.started.sentAll bs).stopped

/-- All that a transaction changes. -/
theorem transacted_eq (bs : List Byte) (s : State) :
    s.transacted bs =
      { s with
        sdaOut := true, sclOut := true, bus := .idle, sr := (s.transacted bs).sr, bitcnt := (s.transacted bs).bitcnt
        ack := (s.transacted bs).ack, xcnt := s.xcnt + BitVec.ofNat 16 bs.length
        envScl := afterReleases (9 * bs.length + 2) s.envScl, envSda := s.envSda.drop (9 * bs.length)
        trace := (startEvents ++ bytesEvents bs s.envSda ++ stopEvents).reverse ++ s.trace } := by
  have hr : afterRelease (afterReleases (9 * bs.length) (afterRelease s.envScl)) =
      afterReleases (9 * bs.length + 2) s.envScl := by
    change afterReleases 1 (afterReleases (9 * bs.length) (afterReleases 1 s.envScl)) = _
    rw [← afterReleases_add, ← afterReleases_add]
    congr 1; omega
  conv_lhs => rw [State.transacted, sentAll_eq]
  simp only [State.started, State.stopped, hr, List.reverse_append, List.append_assoc]
  rfl

theorem transacted_ack {s : State} {bs : List Byte} (hne : bs ≠ []) (h : ∀ j < bs.length, s.byteAcked j) :
    (s.transacted bs).ack = true :=
  sentAll_ack (s := s.started) hne h

theorem transacted_bitcnt {bs : List Byte} (hne : bs ≠ []) (s : State) : (s.transacted bs).bitcnt = 0 := by
  obtain ⟨b, bs, rfl⟩ := List.exists_cons_of_ne_nil hne
  exact (sentAll_drivers b bs s.started).2.2

theorem byteAcked_transacted {s : State} {j : Nat} (bs : List Byte) (h : s.byteAcked (bs.length + j)) :
    (s.transacted bs).byteAcked j := byteAcked_sentAll (s := s.started) bs h

theorem byteNacked_transacted {s : State} {j : Nat} (bs : List Byte) (h : s.byteNacked (bs.length + j)) :
    (s.transacted bs).byteNacked j := byteNacked_sentAll (s := s.started) bs h

theorem releases_transacted {s : State} {n : Nat} (bs : List Byte) (h : s.releases (9 * bs.length + 2 + n)) :
    (s.transacted bs).releases n :=
  releases_stopped (releases_sentAll bs (releases_started (h.mono (by omega))))

/-! ### Pieces of pseudocode that send bytes -/

/-- The piece `p` sends the bytes `bs`: with all of them acknowledged the command goes on after it, and at a byte that is
not acknowledged it is over. -/
structure Sends (p : List Micro) (bs : List Byte) : Prop where
  acked : ∀ (s : State) (k : List Micro), (∀ j < bs.length, s.byteAcked j) → s.releases (9 * bs.length) →
    Steps (s.goOn (p ++ k)) ((s.sentAll bs).goOn k)
  nacked : ∀ (s : State) (k : List Micro) (j : Nat) (hj : j < bs.length), (∀ i < j, s.byteAcked i) → s.byteNacked j →
    s.releases (9 * (j + 1)) → Steps (s.goOn (p ++ k)) ((s.sentAll (bs.take j)).failedAt bs[j])

theorem sends_wr (b : Byte) : Sends [.wr b] [b] where
  acked := fun s k h hc => steps_bytes_acked [b] s k h hc
  nacked := fun s k j hj h hn hc => by
    obtain rfl : j = 0 := by simpa using hj
    exact steps_bytes_nacked [] b k s (by simp) hn hc

theorem sends_zeros (n : Nat) : Sends [.zeros n] (List.replicate n 0) where
  acked := fun s k h hc => steps_zeros_acked n s k (by simpa using h) (by simpa using hc)
  nacked := fun s k j hj h hn hc => by
    have hj' : j < n := by simpa using hj
    have := steps_zeros_nacked j n s k hj' h hn hc
    simpa [List.take_replicate, Nat.min_eq_left hj'.le] using this

theorem Sends.append {p q : List Micro} {as bs : List Byte} (hp : Sends p as) (hq : Sends q bs) :
    Sends (p ++ q) (as ++ bs) where
  acked := fun s k h hc => by
    rw [List.append_assoc, sentAll_append]
    simp only [List.length_append] at h hc
    refine (hp.acked s (q ++ k) (fun j hj => h j (by omega)) (hc.mono (by omega))).trans ?_
    exact hq.acked _ k (fun j hj => byteAcked_sentAll as (h _ (by omega)))
      (releases_sentAll as (hc.mono (by omega)))
  nacked := fun s k j hj h hn hc => by
    rw [List.append_assoc]
    simp only [List.length_append] at hj
    by_cases ha : j < as.length
    · rw [List.take_append_of_le_length ha.le, List.getElem_append_left ha]
      exact hp.nacked s _ j ha h hn hc
    · obtain ⟨i, rfl⟩ : ∃ i, j = as.length + i := ⟨j - as.length, by omega⟩
      rw [List.take_length_add_append, sentAll_append, List.getElem_append_right (by omega)]
      refine (hp.acked s (q ++ k) (fun j hj => h j (by omega)) (hc.mono (by omega))).trans ?_
      have := hq.nacked (s.sentAll as) k i (by omega) (fun j hj => byteAcked_sentAll as (h _ (by omega)))
        (byteNacked_sentAll as hn) (releases_sentAll as (hc.mono (by omega)))
      simpa using this

theorem sends_wrs (bs : List Byte) : Sends (bs.map .wr) bs := by
  induction bs with
  | nil => exact ⟨fun s k _ _ => Steps.refl _, fun s k j hj => absurd hj (by simp)⟩
  | cons b bs ih => exact (sends_wr b).append ih

theorem bytesEvents_append (as bs : List Byte) (env : List Level) :
    bytesEvents (as ++ bs) env = bytesEvents as env ++ bytesEvents bs (env.drop (9 * as.length)) := by
  induction as generalizing env with
  | nil => rfl
  | cons a as ih => simp [bytesEvents, ih, Nat.mul_add, Nat.add_comm]

/-- A whole transaction whose bytes are all acknowledged. -/
theorem Sends.transaction {p : List Micro} {bs : List Byte} (hp : Sends p bs) (s : State) (k : List Micro)
    (hs : s.sclOut = true) (h : ∀ j < bs.length, s.byteAcked j) (hc : s.releases (9 * bs.length + 2)) :
    Steps (s.goOn (startCond ++ (p ++ (stopCond ++ k)))) ((s.transacted bs).goOn k) := by
  refine (steps_startCond s _ hs (hc.mono (by omega))).trans ?_
  have hc' : s.started.releases (9 * bs.length + 1) := releases_started hc
  refine (hp.acked s.started _ h (hc'.mono (by omega))).trans ?_
  exact steps_stopCond _ _ (releases_sentAll bs hc')

/-- The state after a transaction that ended at its byte `j`, which was not acknowledged. -/
def State.cutShort (bs : List Byte) (j : Nat) (s : State) : State :=
  (s.started.sentAll (bs.take j)).failedAt (bs.getD j 0)

theorem Sends.cutShort {p : List Micro} {bs : List Byte} (hp : Sends p bs) (s : State) (k : List Micro) (j : Nat)
    (hs : s.sclOut = true) (hj : j < bs.length) (h : ∀ i < j, s.byteAcked i) (hn : s.byteNacked j)
    (hc : s.releases (9 * (j + 1) + 1)) :
    Steps (s.goOn (startCond ++ (p ++ k))) (s.cutShort bs j) := by
  refine (steps_startCond s _ hs (hc.mono (by omega))).trans ?_
  have := hp.nacked s.started k j hj h hn (releases_started hc)
  simpa [State.cutShort, hj] using this

/-- All that such a transaction changes. -/
theorem cutShort_eq (bs : List Byte) (j : Nat) (s : State) (hj : j < bs.length) (hn : s.byteNacked j) :
    s.cutShort bs j =
      { s with
        seq := none, code := .nack, ack := false, xcnt := s.xcnt + BitVec.ofNat 16 j, bus := .held, sclOut := false
        sdaOut := true, sr := (s.cutShort bs j).sr, bitcnt := 0
        envScl := afterReleases (9 * (j + 1) + 1) s.envScl, envSda := s.envSda.drop (9 * (j + 1))
        trace := (startEvents ++ bytesEvents (bs.take (j + 1)) s.envSda).reverse ++ s.trace } := by
  have hl : (bs.take j).length = j := by simp; omega
  have h8 : (s.envSda.drop (9 * j)).getD 8 true = true := by
    have : s.envSda[9 * j + 8]? = some true := hn
    simp [List.getD_eq_getElem?_getD, this]
  have hg : bs.getD j 0 = bs[j] := by simp [hj]
  have ht : bs.take (j + 1) = bs.take j ++ [bs[j]] := by simp
  rw [ht, bytesEvents_append, hl]
  have hs : (s.started.sentAll (bs.take j)).envSda = s.envSda.drop (9 * j) := by rw [sentAll_envSda, hl]; rfl
  ext1
  case sr => rfl
  case bitcnt => rfl
  case envScl =>
    have h : afterReleases 9 (afterReleases (9 * j) (afterReleases 1 s.envScl)) =
        afterReleases (9 * (j + 1) + 1) s.envScl := by
      rw [← afterReleases_add, ← afterReleases_add]
      congr 1; omega
    rw [← h]
    simp only [State.cutShort, State.failedAt, State.sent, sentAll_envScl, hl]
    rfl
  all_goals simp only [State.cutShort, State.failedAt, State.sent, hg, hs, h8, ackOf, Bool.not_true]
  all_goals try rw [sentAll_eq]
  all_goals simp [State.started, bytesEvents, hl, Nat.mul_add]

end Sys2Proof.Machine
end

