-- ==== Sys2Proof/Laws/Commands.lean ====
section
/-! SUPPORT. Where a command of one or of two transactions gets to from its acceptance: to success, or cut short at the
byte that was not acknowledged (42_display_controller.md R90, R93 to R97; 60_exceptions.md R107). -/

namespace Sys2Proof.Machine

/-- The state a command starts in: `XCNT` is 0 (40_command_issue.md R66). -/
def State.fresh (s : State) : State := { s with xcnt := 0 }

/-- One transaction, all bytes acknowledged. -/
theorem Sends.succeeds {p : List Micro} {bs : List Byte} (hp : Sends p bs) (hne : bs ≠ []) (s : State)
    (hr : s.readyIdle) (h : ∀ j < bs.length, s.byteAcked j) (hc : s.releases (9 * bs.length + 2)) :
    ∃ f, Runs (s.fresh.goOn (startCond ++ (p ++ (stopCond ++ [.setCode .ok])))) f ∧
      f = s.succeeded [bs] bs.length f := by
  refine ⟨_, ((hp.transaction s.fresh _ hr.2.2.1 h hc).trans (steps_normalEnd _)).runs hr.2.2.2, ?_⟩
  rw [transacted_eq, transacted_ack (s := s.fresh) hne h, transacted_bitcnt hne]
  ext1 <;> simp [State.succeeded, State.fresh, transactionsEvents]

/-- A NACK in the first transaction, whatever was to follow. -/
theorem Sends.aborts {p : List Micro} {bs : List Byte} (hp : Sends p bs) (ts : List (List Byte)) (k : List Micro)
    (s : State) (j : Nat) (hr : s.readyIdle) (hj : j < bs.length) (h : ∀ i < j, s.byteAcked i) (hn : s.byteNacked j)
    (hc : s.releases (9 * (j + 1) + 1)) :
    ∃ f, Runs (s.fresh.goOn (startCond ++ (p ++ k))) f ∧ f = s.abortedAt (bs :: ts) j f := by
  refine ⟨_, (hp.cutShort s.fresh k j hr.2.2.1 hj h hn hc).runs hr.2.2.2, ?_⟩
  rw [cutShort_eq bs j s.fresh hj hn]
  simp [State.abortedAt, State.fresh, cutEvents, cutReleases, Nat.succ_le_of_lt hj]

/-- Two transactions, all bytes acknowledged, up to the steps `k` after the second: the cursor is as before. -/
theorem Sends.succeeds_two {p q : List Micro} {as bs : List Byte} (hp : Sends p as) (hq : Sends q bs) (hne : bs ≠ [])
    (k : List Micro) (s : State) (hr : s.readyIdle) (h : ∀ j < as.length + bs.length, s.byteAcked j)
    (hc : s.releases (9 * (as.length + bs.length) + 4)) :
    ∃ u, Steps (s.fresh.goOn (startCond ++ (p ++ (stopCond ++ (startCond ++ (q ++ (stopCond ++ k))))))) (u.goOn k) ∧
      u.cursor = s.cursor ∧ { u with seq := none, code := .ok } = s.succeeded [as, bs] (as.length + bs.length) u := by
  have h' : ∀ j < bs.length, (s.fresh.transacted as).byteAcked j :=
    fun j hj => byteAcked_transacted as (h _ (by omega))
  refine ⟨(s.fresh.transacted as).transacted bs, ?_, ?_, ?_⟩
  · refine (hp.transaction s.fresh _ hr.2.2.1 (fun j hj => h j (by omega)) (hc.mono (by omega))).trans ?_
    exact hq.transaction _ k rfl h' (releases_transacted as (hc.mono (by omega)))
  · rw [transacted_eq]; rw [transacted_eq]; rfl
  · ext1
    case sr => rfl
    case bitcnt => exact transacted_bitcnt hne _
    case ack => exact transacted_ack (s := s.fresh.transacted as) hne h'
    case envScl =>
      have hn : 9 * (as.length + bs.length) + 2 * [as, bs].length = 9 * bs.length + 2 + (9 * as.length + 2) := by
        simp only [List.length_cons, List.length_nil]; omega
      simp only [State.succeeded, hn, afterReleases_add]
      rw [transacted_eq]; rw [transacted_eq]; rfl
    all_goals simp only [State.succeeded]
    all_goals rw [transacted_eq]
    all_goals try rw [transacted_eq]
    all_goals simp [State.fresh, transactionsEvents, Nat.mul_add, BitVec.ofNat_add]

/-- A NACK in the second transaction. -/
theorem Sends.aborts_second {p q : List Micro} {as bs : List Byte} (hp : Sends p as) (hq : Sends q bs) (k : List Micro)
    (s : State) (j : Nat) (hr : s.readyIdle) (hl : as.length ≤ j) (hj : j < as.length + bs.length)
    (h : ∀ i < j, s.byteAcked i) (hn : s.byteNacked j) (hc : s.releases (9 * (j + 1) + 3)) :
    ∃ f, Runs (s.fresh.goOn (startCond ++ (p ++ (stopCond ++ (startCond ++ (q ++ k)))))) f ∧
      f = s.abortedAt [as, bs] j f := by
  obtain ⟨i, rfl⟩ : ∃ i, j = as.length + i := ⟨j - as.length, by omega⟩
  have hi : i < bs.length := by omega
  have hn' : (s.fresh.transacted as).byteNacked i := byteNacked_transacted as hn
  have h1 := hp.transaction s.fresh (startCond ++ (q ++ k)) hr.2.2.1 (fun j hj => h j (by omega)) (hc.mono (by omega))
  have h2 := hq.cutShort (s.fresh.transacted as) k i rfl hi (fun j hj => byteAcked_transacted as (h _ (by omega))) hn'
    (releases_transacted as (hc.mono (by omega)))
  refine ⟨_, (h1.trans h2).runs hr.2.2.2, ?_⟩
  rw [cutShort_eq _ _ _ hi hn', transacted_eq]
  have hni : ¬ as.length + i + 1 ≤ as.length := by omega
  have hni' : as.length + i + 1 - as.length = i + 1 := by omega
  ext1
  case envScl =>
    have hr : cutReleases [as, bs] (as.length + i + 1) = 9 * (i + 1) + 1 + (9 * as.length + 2) := by
      simp only [cutReleases, hni, if_false, hni', Nat.succ_le_of_lt hi, if_true]; omega
    simp only [State.abortedAt, hr, afterReleases_add]
    rfl
  all_goals
    simp [State.abortedAt, State.fresh, cutEvents, Nat.succ_le_of_lt hi, Nat.mul_add, Nat.add_assoc, BitVec.ofNat_add]

end Sys2Proof.Machine
end

