-- ==== Sys2Proof/Laws/Invariant.lean ====
section
/-! SUPPORT. The lemmas of the invariant: what is known of the lines may be known less exactly, the pseudocode of every
command is disciplined, and so are the pieces the engine unfolds (10_state.md R34; 41_bus_engine.md R73, R80). -/

namespace Sys2Proof.Machine

/-- `a` knows of the lines no more than `b` does, and nothing else. -/
structure Lines.Below (a b : Lines) : Prop where
  scl   : a.scl = b.scl
  sda   : a.sda = none ∨ a.sda = b.sda
  bus   : a.bus = b.bus
  count : a.count = true → b.count = true
  code  : a.code = b.code

theorem Lines.Below.refl (a : Lines) : a.Below a := ⟨rfl, .inr rfl, rfl, id, rfl⟩

/-- A check that passes with less known passes with more known. -/
theorem disciplined_mono {a b : Lines} {k : List Micro} (hk : disciplined a k = true) (h : a.Below b) :
    disciplined b k = true := by
  induction k generalizing a b with
  | nil =>
    obtain ⟨s, d, u, c, e⟩ := a
    obtain ⟨s', d', u', c', e'⟩ := b
    obtain ⟨rfl, hd, rfl, hc, rfl⟩ := h
    cases u <;> rcases hd with hd | hd <;> simp_all [disciplined, Lines.rest]
  | cons m k ih =>
    obtain ⟨s, d, u, c, e⟩ := a
    obtain ⟨s', d', u', c', e'⟩ := b
    obtain ⟨rfl, hd, rfl, hc, rfl⟩ := h
    replace hd : d = none ∨ d = d' := hd
    replace hc : c = true → c' = true := hc
    have go {a' b' : Lines} (hk' : disciplined a' k = true) (h' : a'.Below b') := @ih a' b' hk' h'
    cases m <;> simp only [disciplined, Bool.and_eq_true] at hk ⊢ <;>
      first
      | exact go hk ⟨rfl, hd, rfl, hc, rfl⟩
      | exact go hk ⟨rfl, .inr rfl, rfl, hc, rfl⟩
      | exact ⟨hk.1, go hk.2 ⟨rfl, hd, rfl, hc, rfl⟩⟩
      | exact ⟨hk.1, go hk.2 ⟨rfl, .inr rfl, rfl, hc, rfl⟩⟩
      | exact ⟨hk.1, go hk.2 ⟨rfl, hd, rfl, id, rfl⟩⟩
      | exact ⟨hk.1, go hk.2 (Lines.Below.refl _)⟩
      | skip
    case sample use =>
      refine ⟨?_, go hk.2 ?_⟩
      · have := hk.1
        cases use <;> rcases hd with hd | hd <;> simp_all [Lines.maySample]
      · cases use <;> exact ⟨rfl, hd, rfl, id, rfl⟩
    case countDown => exact ⟨hc hk.1, go hk.2 ⟨rfl, hd, rfl, id, rfl⟩⟩
    case abortIf b =>
      refine ⟨?_, go hk.2 ⟨rfl, hd, rfl, hc, rfl⟩⟩
      have := hk.1
      rcases hd with hd | hd <;> simp_all [Lines.maySend]
    case setBus b =>
      refine ⟨?_, go hk.2 ⟨rfl, hd, rfl, hc, rfl⟩⟩
      have := hk.1
      cases b <;> rcases hd with hd | hd <;> simp_all [Lines.rest]

/-- With SCL low the engine may set SDA either way. -/
theorem Lines.mayDriveSda_of_low {a : Lines} (h : a.scl = false) (v : Level) : a.mayDriveSda v = true := by
  unfold Lines.mayDriveSda; cases a.bus <;> simp [h]

/-- Bytes may be sent one after the other inside a transaction. -/
theorem disciplined_wrs (a : Lines) (bs : List Byte) (k : List Micro) (h : a.maySend = true)
    (hk : disciplined { a with sda := none, count := false } k = true) : disciplined a (bs.map .wr ++ k) = true := by
  induction bs generalizing a with
  | nil => exact disciplined_mono hk ⟨rfl, .inl rfl, rfl, by simp, rfl⟩
  | cons b bs ih =>
    simp only [List.map_cons, List.cons_append, disciplined, Bool.and_eq_true]
    exact ⟨h, ih _ h hk⟩

/-- The pseudocode of a command that may start is disciplined, from any value of the hidden counter and the code. -/
theorem disciplined_script (i : Instr) (s t : State) (hs : s.seq = none) (hr : s.lines.rest = true)
    (hb : s.bus = requiredBus i) (h : exec i s = .next t) : t.inOrder = true := by
  have hl : s.lines.rest = true ∧ s.bus = requiredBus i := ⟨hr, hb⟩
  cases i <;> simp only [requiredBus] at hb <;>
    simp only [exec, execStart, execStop, execWrbyte, execRdbyte, execAckbit, execConnect, execCtrlbyte, execInit, execSetwin,
      execClear, execGlyph, issue_of_ready hs hb, Host.Outcome.next.injEq] at h <;>
    subst h <;>
    simp only [State.lines, Lines.rest, hb, Bool.and_eq_true, beq_iff_eq, Option.some.injEq, Bool.not_eq_true'] at hr <;>
    simp only [State.inOrder, State.accept, State.goOn, State.lines, hb, hr]
  case init =>
    have hw (a : Lines) (h : a.scl = false) (h' : a.bus = .held) (h'' : a.code = s.code) :
        disciplined a ((scriptBytes s.params.initScript).map .wr ++ (stopCond ++ [.setCode .ok])) = true := by
      refine disciplined_wrs _ _ _ ?_ ?_
      · simp [Lines.maySend, h, h']
      · simp [stopCond, disciplined, Lines.mayDriveSda, Lines.rest, h, h']
    simp only [conn, startCond, List.append_assoc, List.cons_append, List.nil_append, disciplined, Lines.mayDriveSda,
      Lines.rest, Lines.maySend]
    simp
    exact hw _ rfl rfl rfl
  all_goals
    simp [startCond, stopCond, conn, window, shiftInByte, ackSlot, clockBit, glyphBytes, disciplined, Lines.mayDriveSda,
      Lines.rest, Lines.maySend, Lines.maySample, Lines.afterSlot, Config.clearBytes, show isCell 0#7 = true from rfl]

/-- What the engine goes on with after a sample is disciplined, whichever bit was sampled. -/
theorem disciplined_afterSample (a : Lines) (b : Level) (use : SlotUse) (k : List Micro)
    (h : disciplined a (.sample use :: k) = true) : disciplined a (afterSample b use ++ k) = true := by
  simp only [disciplined, Bool.and_eq_true] at h
  obtain ⟨h1, h2⟩ := h
  cases use <;>
    simp_all [afterSample, slotResult, disciplined, Lines.maySample, Lines.afterSlot, Lines.maySend]

/-- The body of `Wr` is disciplined where `Wr` is. -/
theorem disciplined_wrBody (a : Lines) (b : Byte) (k : List Micro) (h : disciplined a (.wr b :: k) = true) :
    disciplined a (wrBody b ++ k) = true := by
  simp only [disciplined, Bool.and_eq_true, Lines.maySend, Bool.not_eq_true', beq_iff_eq] at h
  obtain ⟨⟨h1, h2⟩, h3⟩ := h
  simp [wrBody, shiftOut, ackSlot, clockBit, disciplined, Lines.mayDriveSda_of_low, Lines.maySample, Lines.afterSlot, h1, h2]
  simpa [h1, h2] using h3

/-- One more slot of a loop is disciplined where the loop is and `_bitcnt` is above 0. -/
theorem disciplined_loopSlot (a : Lines) (v : Level) (k : List Micro) (hc : a.count = true)
    (hs : a.scl = false) (hk : disciplined { a with sda := none, count := false } k = true) :
    disciplined a (clockBit v .shift ++ .outLoop :: k) = true ∧
    disciplined a (clockBit v .shift ++ .inLoop :: k) = true := by
  constructor <;>
  · simp [clockBit, disciplined, Lines.mayDriveSda_of_low, Lines.maySample, Lines.afterSlot, hc, hs]
    simpa [hs] using hk

end Sys2Proof.Machine
end

