-- ==== Sys2Proof/Laws/PerInstr.lean ====
section
/-! SUPPORT. What holds of every instruction as syntax, one lemma per constructor. -/

namespace Sys2Proof.Laws.EncodesLegal

/-- A well-formed instruction's word is legal: its `OP` is assigned, `MOD[3:1]` is zero and `MOD[0]` is the command's
modifier or zero (30_encoding.md R55, R59). -/
def Statement (i : Instr) : Prop := i.wellFormed = true → wordLegal (encode i) = true

theorem start : Statement .start := by unfold Statement; decide

theorem stop : Statement .stop := by unfold Statement; decide

theorem wrbyte : Statement .wrbyte := by unfold Statement; decide

theorem rdbyte (a : Level) : Statement (.rdbyte a) := by unfold Statement; revert a; decide

theorem ackbit (d : Level) : Statement (.ackbit d) := by unfold Statement; revert d; decide

theorem connect (r : Direction) : Statement (.connect r) := by unfold Statement; cases r <;> decide

theorem ctrlbyte (k : StreamKind) : Statement (.ctrlbyte k) := by unfold Statement; cases k <;> decide

theorem init : Statement .init := by unfold Statement; decide

theorem setwin : Statement .setwin := by unfold Statement; decide

theorem clear : Statement .clear := by unfold Statement; decide

theorem glyph : Statement .glyph := by unfold Statement; decide

end Sys2Proof.Laws.EncodesLegal
end

