-- ==== Sys2Proof/Laws/Step.lean ====
section
/-! SUPPORT. Said once: all that issuing an instruction, a host write and a step can do (40_command_issue.md R64 to R68;
70_reset_and_hazards.md R118). -/

namespace Sys2Proof.Machine

/-- Issuing an instruction writes no register but `ERR` and `XCNT`, and touches neither the lines nor the hidden
registers (R66, R67). -/
theorem exec_cases {i : Instr} {s t : State} (h : exec i s = .next t) :
    (s.busy = true ∧ t = s.overrun) ∨ (s.seq = none ∧ t = s.reject .state) ∨
    (s.seq = none ∧ t.busy = true ∧ t = { s with xcnt := 0, seq := t.seq }) := by
  obtain ⟨b, p, he⟩ := exec_eq_issue i s
  rw [he] at h
  rcases issue_cases b p s with ⟨hb, hi⟩ | ⟨hs, -, hi⟩ | ⟨hs, -, hi⟩ <;> rw [hi] at h <;> cases h
  · exact .inl ⟨hb, rfl⟩
  · exact .inr (.inr ⟨hs, rfl, rfl⟩)
  · exact .inr (.inl ⟨hs, rfl⟩)

/-- All that a host write can do: it is lost, it issues an instruction, its word is illegal, or it writes an operand
register or `ERR` (R64, R65). -/
theorem writeReg_cases {off : Offset} {v : Byte} {s t : State} (h : writeReg off v s = .next t) :
    (s.busy = true ∧ t = s.overrun) ∨ (s.seq = none ∧ ∃ i, exec i s = .next t) ∨
    (s.seq = none ∧ t = s.reject .illegal) ∨
    (s.seq = none ∧
      t = { s with
        data := t.data, ovr := t.ovr, wrow := t.wrow, wcol := t.wcol, gbuf0 := t.gbuf0, gbuf1 := t.gbuf1
        gbuf2 := t.gbuf2, gbuf3 := t.gbuf3, gbuf4 := t.gbuf4, gbuf5 := t.gbuf5 } ∧
      (t.ovr = s.ovr ∨ (off = 3 ∧ t.ovr = ovrAfterWrite s.ovr v))) := by
  unfold writeReg at h
  split at h
  · next hb => cases h; exact .inl ⟨hb, rfl⟩
  · next hb =>
    have hs : s.seq = none := (State.busy_eq_false_iff s).1 (by simpa using hb)
    right
    unfold writeIdle at h
    split at h
    case h_1 =>
      unfold issueWord at h
      split at h
      · next i _ => exact .inl ⟨hs, i, h⟩
      · cases h; exact .inr (.inl ⟨hs, rfl⟩)
    case h_4 hr =>
      cases h
      have : off = 3 := by revert hr; revert off; decide
      exact .inr (.inr ⟨hs, rfl, .inr ⟨this, rfl⟩⟩)
    all_goals (cases h; exact .inr (.inr ⟨hs, rfl, .inl rfl⟩))

/-- The engine does not look at the host's moves. -/
theorem engineStep_withInputs (s : State) (r : List Input) :
    engineStep { s with inputs := r } = { engineStep s with inputs := r } := by
  have h := engineStep_hostSide s s.ovr s.reads r
  rw [← engineStep_ovr s, ← engineStep_reads s] at h
  simpa using h

/-- All that a step with a next state can be: a step of the engine, a host read or a `wait` that ends, a host write by
offset or by address, or a reset. -/
theorem step_cases {s t : State} (h : step s = .next t) :
    (∃ r, t = { engineStep s with inputs := r }) ∨
    (∃ m rest, s.inputs = m :: rest ∧
      ((∃ rd, t = { s with inputs := rest, reads := rd }) ∨
       (∃ off v, (m = .write off v ∨ ∃ a n, m = .memWrite a 8 n ∧ v = BitVec.ofNat 8 n ∧
          windowOffset s.params a = some off) ∧ writeReg off v { s with inputs := rest } = .next t) ∨
       (m = .reset ∧ t = ({ s with inputs := rest } : State).resetBlock))) := by
  unfold step nextMove at h
  split at h
  · cases h; exact .inl ⟨(engineStep s).inputs, rfl⟩
  · next m rest hi =>
    cases m with
    | engine => cases h; rw [engineStep_withInputs]; exact .inl ⟨_, rfl⟩
    | read off => cases h; exact .inr ⟨_, rest, hi, .inl ⟨_, rfl⟩⟩
    | write off v => exact .inr ⟨_, rest, hi, .inr (.inl ⟨off, v, .inl rfl, h⟩)⟩
    | wait =>
      simp only [performInput] at h
      split at h
      · cases h; rw [engineStep_withInputs]; exact .inl ⟨_, rfl⟩
      · cases h; exact .inr ⟨_, rest, hi, .inl ⟨_, rfl⟩⟩
    | reset => cases h; exact .inr ⟨_, rest, hi, .inr (.inr ⟨rfl, rfl⟩)⟩
    | memRead a b =>
      simp only [performInput, memRead] at h
      split at h
      · split at h
        · cases h; exact .inr ⟨_, rest, hi, .inl ⟨_, rfl⟩⟩
        · cases h
      · cases h
    | memWrite a b v =>
      simp only [performInput, memWrite] at h
      split at h
      · next hb =>
        split at h
        · next off ho => subst hb; exact .inr ⟨_, rest, hi, .inr (.inl ⟨off, _, .inr ⟨a, v, rfl, rfl, ho⟩, h⟩)⟩
        · cases h
      · cases h

/-- The invariant looks at the cursor's column, the hidden counter, the pseudocode and what shows of the lines only. -/
theorem State.Inv.congr {s t : State} (h : s.Inv) (h1 : t.curCol = s.curCol) (h2 : t.bitcnt = s.bitcnt)
    (h3 : t.seq = s.seq) (h4 : t.lines = s.lines) : t.Inv := by
  refine ⟨h1 ▸ h.cell, h2 ▸ h.count, ?_⟩
  have := h.order
  unfold State.inOrder at *
  rwa [h3, h4]

end Sys2Proof.Machine
end

