-- ==== Sys2Proof/Tests/Slice0.lean ====
section
/-! SUPPORT. Small tests, with expected results worked out from the rules and vectors of spec/, and for every statement
with hypotheses a witness that meets them. -/

namespace Sys2Proof.Tests

open Sys2Proof Sys2Proof.Machine

/-! ### Decoding: words written out bit by bit from 30_encoding.md R55, R58 -/

theorem test_decode_start : decode 0b00010000 = .ok .start := by rfl
theorem test_decode_stop : decode 0b00100000 = .ok .stop := by rfl
theorem test_decode_wrbyte : decode 0b00110000 = .ok .wrbyte := by rfl
theorem test_decode_rdbyte_ack : decode 0b01000000 = .ok (.rdbyte false) := by rfl
theorem test_decode_rdbyte_nack : decode 0b01000001 = .ok (.rdbyte true) := by rfl
theorem test_decode_ackbit_0 : decode 0b01010000 = .ok (.ackbit false) := by rfl
theorem test_decode_ackbit_1 : decode 0b01010001 = .ok (.ackbit true) := by rfl
theorem test_decode_connect_w : decode 0b10000000 = .ok (.connect .write) := by rfl
theorem test_decode_connect_r : decode 0b10000001 = .ok (.connect .read) := by rfl
theorem test_decode_ctrlbyte_cmd : decode 0b10010000 = .ok (.ctrlbyte .command) := by rfl
theorem test_decode_ctrlbyte_data : decode 0b10010001 = .ok (.ctrlbyte .data) := by rfl
theorem test_decode_init : decode 0b10100000 = .ok .init := by rfl
theorem test_decode_setwin : decode 0b10110000 = .ok .setwin := by rfl
theorem test_decode_clear : decode 0b11000000 = .ok .clear := by rfl
theorem test_decode_glyph : decode 0b11010000 = .ok .glyph := by rfl

/-! ### Well-formedness: an ill-formed word for each check is refused (R59) -/

/-- `OP` = 0x6 selects no command. -/
theorem test_reserved_op_refused : wordLegal 0x60 = false ∧ decode 0x60 = .error (.reservedOp 0x6) := ⟨by decide, rfl⟩

/-- `MOD[3:1]` = 0b001 beside a legal `OP`. -/
theorem test_mod_high_bits_refused : wordLegal 0x42 = false ∧ decode 0x42 = .error (.modHighBits 0x1) :=
  ⟨by decide, rfl⟩

/-- `MOD[0]` = 1 for STOP, which has no modifier. -/
theorem test_no_modifier_refused : wordLegal 0x21 = false ∧ decode 0x21 = .error (.noModifier 0x2) := ⟨by decide, rfl⟩

/-- Every word of an instruction is well formed at the ends of its operand's range. -/
theorem test_legal_words : wordLegal 0x10 = true ∧ wordLegal 0x41 = true ∧ wordLegal 0x91 = true := by decide

theorem test_table_word : decodeTableWord 8 0x81 = some (.connect .read) ∧ decodeTableWord 8 0x00 = none ∧
    decodeTableWord 16 0x0110 = none := by decide

/-! ### Small states -/

/-- After reset, with the parameters 92_eei_decisions.md offers as defaults. -/
def idle : State := { State.reset with params := Config.defaultParams 0x4000 }

/-- A transaction is open and SCL is low. -/
def held : State := { idle with bus := .held, sclOut := false }

/-- The state an outcome gives. -/
def nextOf : Host.Outcome State Fault Refusal → Option State
  | .next s    => some s
  | .fault _   => none
  | .refused _ => none

/-- The bytes the first steps of the running command send. -/
def sends (s : State) : List Byte :=
  (s.seq.getD []).filterMap fun
    | .wr b => some b
    | _     => none

/-- `BUSY`, `XCNT`, `ERR.CODE` and the bytes to send after the word `w` was written to `CMD` in `s`. -/
def issued (w : Nat) (s : State) : Option (Bool × Count × ErrCode × List Byte) :=
  (nextOf (step (s.withFetchWord 8 w))).map fun t => (t.busy, t.xcnt, t.code, sends t)

/-! ### Issuing: accepted in the bus state R60 requires, with the bytes the rules of the command give, else rejected -/

theorem test_start : issued 0x10 { idle with xcnt := 5 } = some (true, 0, .ok, []) := by decide
theorem test_start_held : issued 0x10 { held with xcnt := 5 } = some (false, 0, .state, []) := by decide
theorem test_stop : issued 0x20 { held with xcnt := 5 } = some (true, 0, .ok, []) := by decide
theorem test_stop_idle : issued 0x20 idle = some (false, 0, .state, []) := by decide
theorem test_wrbyte : issued 0x30 { held with data := 0xA5 } = some (true, 0, .ok, [0xA5]) := by decide
theorem test_wrbyte_idle : issued 0x30 idle = some (false, 0, .state, []) := by decide
theorem test_rdbyte : issued 0x41 held = some (true, 0, .ok, []) := by decide
theorem test_rdbyte_idle : issued 0x40 idle = some (false, 0, .state, []) := by decide
theorem test_ackbit : issued 0x51 held = some (true, 0, .ok, []) := by decide
theorem test_ackbit_idle : issued 0x51 idle = some (false, 0, .state, []) := by decide

/-- `{DATA[6:0], r}` with `DATA[7]` ignored (R57): address 0x50 for reading. -/
theorem test_connect : issued 0x81 { idle with data := 0xD0 } = some (true, 0, .ok, [0xA1]) := by decide
theorem test_connect_held : issued 0x80 { held with data := 0x3C } = some (false, 0, .state, []) := by decide
theorem test_ctrlbyte : issued 0x91 held = some (true, 0, .ok, [0x40]) := by decide
theorem test_ctrlbyte_idle : issued 0x90 idle = some (false, 0, .state, []) := by decide

/-- The address byte, the control byte and the script of 92_eei_decisions.md D17. -/
theorem test_init : issued 0xA0 idle = some (true, 0, .ok,
    [0x78, 0x00, 0xAE, 0xA8, 0x3F, 0xD3, 0x00, 0x40, 0xA1, 0xC8, 0xDA, 0x12, 0x81, 0x7F, 0xA4, 0xA6, 0xD5, 0x80, 0x8D,
     0x14, 0xDB, 0x40, 0x20, 0x00, 0xD9, 0xF1, 0xAF]) := by decide
theorem test_init_held : issued 0xA0 held = some (false, 0, .state, []) := by decide

/-- The eight bytes of a window (R88) from row 3, column 42. -/
theorem test_setwin : issued 0xB0 { idle with wrow := 3, wcol := 42 } =
    some (true, 0, .ok, [0x78, 0x00, 0x22, 0x03, 0x07, 0x21, 0x2A, 0x7F]) := by decide
theorem test_setwin_held : issued 0xB0 held = some (false, 0, .state, []) := by decide

/-- The full window, then the address and the data control byte; the zeros follow as a loop (R96). -/
theorem test_clear : issued 0xC0 { idle with curRow := 2, curCol := 6 } =
    some (true, 0, .ok, [0x78, 0x00, 0x22, 0x00, 0x07, 0x21, 0x00, 0x7F, 0x78, 0x40]) := by decide
theorem test_clear_held : issued 0xC0 held = some (false, 0, .state, []) := by decide

/-- The window at the cursor, then the six bytes of the buffer (R97). -/
theorem test_glyph : issued 0xD0 { idle with curRow := 7, curCol := 120, gbuf0 := 1, gbuf1 := 2, gbuf5 := 6 } =
    some (true, 0, .ok, [0x78, 0x00, 0x22, 0x07, 0x07, 0x21, 0x78, 0x7F, 0x78, 0x40, 1, 2, 0, 0, 0, 6]) := by decide
theorem test_glyph_held : issued 0xD0 held = some (false, 0, .state, []) := by decide

/-! ### One step of the pseudocode -/

/-- A line the engine drives low reads 0 though the environment lets it go (00_scope.md R15). -/
theorem test_sample_wired_and :
    (engineStep { held with sdaOut := false, envSda := [true], seq := some [.sample .shift] }).trace = [.sample false] := by
  decide

/-- `_sr <- {_sr[6:0], s}` (R75). -/
theorem test_shift : (engineStep { held with sr := 0xC1, seq := some [.shift false] }).sr = 0x82 := by decide

/-- The cursor wraps from the last cell of the last row to the first of row 0 (R98). -/
theorem test_advance_writes : advanceWrites 7 120 = [.setCol 0, .setRow 0] ∧ advanceWrites 7 114 = [.setCol 120] := by
  decide

/-- Command words of `CMD` reads, `STATUS` and `ERR` as R63 lays them out. -/
theorem test_reads : ({ held with ack := true, seq := some [] } : State).readReg 0x2 = 0x07 ∧
    ({ idle with ovr := true, code := .state } : State).readReg 0x3 = 0x83 ∧ idle.readReg 0x0 = 0x00 ∧
    ({ idle with xcnt := 0x040A } : State).readReg 0x5 = 0x04 := by decide

/-- `glyph` of the assembler is six writes, the command and a wait (R62). -/
theorem test_assemble : assemble (pseudoGlyph 1 2 3 4 5 6) =
    [.write 0xA 1, .write 0xB 2, .write 0xC 3, .write 0xD 4, .write 0xE 5, .write 0xF 6, .write 0x0 0xD0, .wait] := by
  decide

/-! ### Witnesses: environments for the statements about whole commands -/

/-- `s` where the environment lets SCL go `n` times and pulls SDA low in `n` slots. -/
def acking (n : Nat) (s : State) : State :=
  { s with envScl := List.replicate n true, envSda := List.replicate n false }

/-- `s` where the environment acknowledges `j` bytes and leaves SDA high in the acknowledge slot of the next. -/
def nacking (j : Nat) (s : State) : State :=
  { s with envScl := List.replicate (9 * j + 12) true, envSda := List.replicate (9 * j + 8) false ++ [true] }

theorem releases_acking {m n : Nat} (s : State) (h : m ≤ n) : (acking n s).releases m := by
  simpa [State.releases, acking] using h

theorem slots_acking {m n : Nat} (s : State) (h : m ≤ n) : (acking n s).slots m := by
  simpa [State.slots, acking] using h

theorem byteAcked_acking {j n : Nat} (s : State) (h : 9 * j + 8 < n) : (acking n s).byteAcked j := by
  simp [State.byteAcked, acking, h]

theorem releases_nacking {m j : Nat} (s : State) (h : m ≤ 9 * j + 12) : (nacking j s).releases m := by
  simpa [State.releases, nacking] using h

theorem byteAcked_nacking {i j : Nat} (s : State) (h : i < j) : (nacking j s).byteAcked i := by
  have h' : 9 * i + 8 < 9 * j + 8 := by omega
  simp [State.byteAcked, nacking, List.getElem?_append, h']

theorem byteNacked_nacking (j : Nat) (s : State) : (nacking j s).byteNacked j := by
  simp [State.byteNacked, nacking]

theorem readyIdle_acking (n : Nat) : (acking n idle).readyIdle := ⟨rfl, rfl, rfl, rfl⟩

theorem readyHeld_acking (n : Nat) : (acking n held).readyHeld := ⟨rfl, rfl, rfl, rfl⟩

theorem readyIdle_nacking (j : Nat) : (nacking j idle).readyIdle := ⟨rfl, rfl, rfl, rfl⟩

theorem readyHeld_nacking (j : Nat) : (nacking j held).readyHeld := ⟨rfl, rfl, rfl, rfl⟩

/-- A command that requires the other bus state (the rejecting clause of every command's statement). -/
theorem witness_wrong_state : (idle.seq = none ∧ idle.bus = .idle) ∧ held.seq = none ∧ held.bus = .held := by decide

theorem witness_StartOpensATransaction :
    ((acking 1 idle).readyIdle ∧ (acking 1 idle).releases 1) ∧ held.seq = none ∧ held.bus = .held :=
  ⟨⟨readyIdle_acking 1, releases_acking idle (by omega)⟩, rfl, rfl⟩

/-- Held low twice, and not at all. -/
theorem witness_StartWaitsBeforeTouchingSda :
    (({ idle with envScl := [false, false, true] } : State).readyIdle ∧
      ({ idle with envScl := [false, false, true] } : State).envScl = List.replicate 2 false ++ [true]) ∧
    idle.readyIdle ∧ idle.envScl = List.replicate 0 false ++ [] :=
  ⟨⟨⟨rfl, rfl, rfl, rfl⟩, rfl⟩, ⟨rfl, rfl, rfl, rfl⟩, rfl⟩

theorem witness_StopReleasesTheBus :
    ((acking 1 held).readyHeld ∧ (acking 1 held).releases 1) ∧ idle.seq = none ∧ idle.bus = .idle :=
  ⟨⟨readyHeld_acking 1, releases_acking held (by omega)⟩, rfl, rfl⟩

/-- For WRBYTE and CTRLBYTE. -/
theorem witness_WrbyteSendsData :
    ((acking 9 held).readyHeld ∧ (acking 9 held).byteAcked 0 ∧ (acking 9 held).releases 9) ∧
    ((nacking 0 held).readyHeld ∧ (nacking 0 held).byteNacked 0 ∧ (nacking 0 held).releases 9) ∧
    idle.seq = none ∧ idle.bus = .idle :=
  ⟨⟨readyHeld_acking 9, byteAcked_acking held (by omega), releases_acking held (by omega)⟩,
   ⟨readyHeld_nacking 0, byteNacked_nacking 0 held, releases_nacking held (by omega)⟩, rfl, rfl⟩

theorem witness_CtrlbyteSendsTheControlByte :
    ((acking 9 held).readyHeld ∧ (acking 9 held).byteAcked 0 ∧ (acking 9 held).releases 9) ∧
    ((nacking 0 held).readyHeld ∧ (nacking 0 held).byteNacked 0 ∧ (nacking 0 held).releases 9) ∧
    idle.seq = none ∧ idle.bus = .idle := witness_WrbyteSendsData

theorem witness_RdbyteReceivesIntoData :
    ((acking 9 held).readyHeld ∧ (acking 9 held).slots 9 ∧ (acking 9 held).releases 9) ∧
    idle.seq = none ∧ idle.bus = .idle :=
  ⟨⟨readyHeld_acking 9, slots_acking held (by omega), releases_acking held (by omega)⟩, rfl, rfl⟩

theorem witness_AckbitRecordsTheSlot :
    ((acking 1 held).readyHeld ∧ (acking 1 held).envSda = [false] ∧ (acking 1 held).releases 1) ∧
    idle.seq = none ∧ idle.bus = .idle :=
  ⟨⟨readyHeld_acking 1, rfl, releases_acking held (by omega)⟩, rfl, rfl⟩

theorem witness_ConnectSendsTheAddress :
    ((acking 10 idle).readyIdle ∧ (acking 10 idle).byteAcked 0 ∧ (acking 10 idle).releases 10) ∧
    ((nacking 0 idle).readyIdle ∧ (nacking 0 idle).byteNacked 0 ∧ (nacking 0 idle).releases 10) ∧
    held.seq = none ∧ held.bus = .held :=
  ⟨⟨readyIdle_acking 10, byteAcked_acking idle (by omega), releases_acking idle (by omega)⟩,
   ⟨readyIdle_nacking 0, byteNacked_nacking 0 idle, releases_nacking idle (by omega)⟩, rfl, rfl⟩

/-- An environment that acknowledges `n` bytes, and one that does so up to any byte below `n`: what a display command of
`n` bytes asks for, at its first and at its last byte as at any other. -/
theorem acked_and_cut (n m : Nat) :
    ((acking (9 * n + m) idle).readyIdle ∧ (∀ j < n, (acking (9 * n + m) idle).byteAcked j) ∧
      (acking (9 * n + m) idle).releases (9 * n + m)) ∧
    ∀ j < n, (nacking j idle).readyIdle ∧ (∀ i < j, (nacking j idle).byteAcked i) ∧ (nacking j idle).byteNacked j ∧
      (nacking j idle).releases (9 * (j + 1) + 3) :=
  ⟨⟨readyIdle_acking _, fun j hj => byteAcked_acking idle (by omega), releases_acking idle (by omega)⟩,
   fun j _ => ⟨readyIdle_nacking j, fun i hi => byteAcked_nacking idle hi, byteNacked_nacking j idle,
    releases_nacking idle (by omega)⟩⟩

/-- The INIT of the default script: 27 bytes. -/
theorem witness_InitSendsTheScript :
    (scriptBytes idle.params.initScript).length + 2 = 27 ∧
    ((acking 245 idle).readyIdle ∧ (∀ j < 27, (acking 245 idle).byteAcked j) ∧ (acking 245 idle).releases 245) ∧
    ((nacking 26 idle).readyIdle ∧ (∀ i < 26, (nacking 26 idle).byteAcked i) ∧ (nacking 26 idle).byteNacked 26 ∧
      (nacking 26 idle).releases (9 * (26 + 1) + 3)) ∧ held.seq = none ∧ held.bus = .held :=
  ⟨by decide, (acked_and_cut 27 2).1, (acked_and_cut 27 2).2 26 (by omega), rfl, rfl⟩

theorem witness_SetwinSendsTheWindow :
    ((acking 74 idle).readyIdle ∧ (∀ j < 8, (acking 74 idle).byteAcked j) ∧ (acking 74 idle).releases 74) ∧
    ((nacking 0 idle).readyIdle ∧ (∀ i < 0, (nacking 0 idle).byteAcked i) ∧ (nacking 0 idle).byteNacked 0 ∧
      (nacking 0 idle).releases (9 * (0 + 1) + 3)) ∧
    ((nacking 7 idle).readyIdle ∧ (∀ i < 7, (nacking 7 idle).byteAcked i) ∧ (nacking 7 idle).byteNacked 7 ∧
      (nacking 7 idle).releases (9 * (7 + 1) + 3)) ∧ held.seq = none ∧ held.bus = .held :=
  ⟨(acked_and_cut 8 2).1, (acked_and_cut 8 2).2 0 (by omega), (acked_and_cut 8 2).2 7 (by omega), rfl, rfl⟩

/-- At the last byte of the window, the first of the data stream and the last of all. -/
theorem witness_ClearBlanksTheDisplay :
    ((acking 9310 idle).readyIdle ∧ (∀ j < 1034, (acking 9310 idle).byteAcked j) ∧ (acking 9310 idle).releases 9310) ∧
    (∀ j < 1034, (nacking j idle).readyIdle ∧ (∀ i < j, (nacking j idle).byteAcked i) ∧ (nacking j idle).byteNacked j ∧
      (nacking j idle).releases (9 * (j + 1) + 3)) ∧ held.seq = none ∧ held.bus = .held :=
  ⟨(acked_and_cut 1034 4).1, (acked_and_cut 1034 4).2, rfl, rfl⟩

theorem witness_GlyphDrawsAndAdvances :
    ((acking 148 idle).readyIdle ∧ (∀ j < 16, (acking 148 idle).byteAcked j) ∧ (acking 148 idle).releases 148) ∧
    (∀ j < 16, (nacking j idle).readyIdle ∧ (∀ i < j, (nacking j idle).byteAcked i) ∧ (nacking j idle).byteNacked j ∧
      (nacking j idle).releases (9 * (j + 1) + 3)) ∧ held.seq = none ∧ held.bus = .held :=
  ⟨(acked_and_cut 16 4).1, (acked_and_cut 16 4).2, rfl, rfl⟩

/-- The state a CONNECT leaves that was not acknowledged. -/
def aborted : State := (nacking 0 idle).abortedAt [[0xA0]] 0 (nacking 0 idle)

/-- The release of SCL that STOP waits for, and seven steps of a command other than STOP. -/
theorem witness_StopRecoversFromAnAbort :
    (nacking 0 idle).inputs = [] ∧ aborted = (nacking 0 idle).abortedAt [[0xA0]] 0 aborted ∧ aborted.releases 1 ∧
    requiredBus .glyph = .idle ∧ ∃ t g, exec .wrbyte aborted = .next t ∧ Host.Core.run Sys2Proof.core 7 t = .next g :=
  ⟨rfl, rfl, by unfold State.releases; decide, rfl, _, _, rfl, rfl⟩

/-! ### Witnesses: the other statements with hypotheses -/

/-- Words at the edges of each way to be illegal, and legal neighbours. -/
theorem witness_IllegalWordsAreRejectedWithoutEffect :
    idle.seq = none ∧ (0x0F : Byte).extractLsb' 4 4 ∈ ([0x0, 0x6, 0x7, 0xE, 0xF] : List (BitVec 4)) ∧
    (0x4E : Byte).extractLsb' 1 3 ≠ 0#3 ∧
    ((0xD1 : Byte).extractLsb' 4 4 ∈ ([0x1, 0x2, 0x3, 0xA, 0xB, 0xC, 0xD] : List (BitVec 4)) ∧
      (0xD1 : Byte).getLsbD 0 = true) ∧
    (decode 0x41).toOption = some (.rdbyte true) := by decide

theorem witness_CommandRequiresItsBusState :
    idle.seq = none ∧ idle.bus = requiredBus .start ∧ idle.bus ≠ requiredBus .stop ∧
    held.seq = none ∧ held.bus = requiredBus .stop ∧ held.bus ≠ requiredBus .glyph := by decide

theorem witness_CmdWriteChecksBusyLegalityState :
    ({ idle with seq := some [] } : State).busy = true ∧ idle.busy = false ∧ decode 0x00 = .error (.reservedOp 0x0) ∧
    decode 0x20 = .ok .stop ∧ idle.bus ≠ requiredBus .stop ∧ decode 0x10 = .ok .start ∧ idle.bus = requiredBus .start :=
  ⟨rfl, rfl, rfl, rfl, by decide, rfl, rfl⟩

theorem witness_StepRunsTheDecodedInstruction :
    ({ idle with inputs := [.write 0x0 0x10, .wait] } : State).seq = none ∧
    ({ idle with inputs := [.write 0x0 0x10, .wait] } : State).inputs = .write 0x0 0x10 :: [.wait] ∧
    decode 0x10 = .ok .start := ⟨rfl, rfl, rfl⟩

theorem witness_ReadRegReturnsTheTabledValue :
    ({ held with seq := some [], inputs := [.read 0x2] } : State).inputs = .read 0x2 :: [] := rfl

theorem witness_IdleWriteHasTheTabledEffect : idle.busy = false := rfl

theorem witness_BusyWriteIsLostAndSetsOverrun :
    ({ held with seq := some [], inputs := [.write 0xF 1] } : State).busy = true ∧
    ({ held with seq := some [], inputs := [.write 0xF 1] } : State).inputs = .write 0xF 1 :: [] := ⟨rfl, rfl⟩

/-- `OVR` cleared by the host's write, by offset and by address, and by a reset. -/
theorem witness_OverrunFlagIsSticky :
    ({ idle with seq := some [] } : State).busy = true ∧ idle.busy = false ∧
    (0x80 : Byte).getLsbD 7 = true ∧ (0x7F : Byte).getLsbD 7 = false ∧
    (∃ t, step { idle with ovr := true, inputs := [.write 0x3 0x80] } = .next t ∧ t.ovr = false) ∧
    (∃ t, step { idle with ovr := true, inputs := [.memWrite 0x4003 8 0x80] } = .next t ∧ t.ovr = false) ∧
    ∃ t, step { idle with ovr := true, inputs := [.reset] } = .next t ∧ t.ovr = false :=
  ⟨rfl, rfl, rfl, rfl, ⟨_, rfl, rfl⟩, ⟨_, rfl, rfl⟩, ⟨_, rfl, rfl⟩⟩

theorem witness_WideAccessIsRefused :
    ({ idle with inputs := [.memRead 0x4000 16] } : State).inputs = .memRead 0x4000 16 :: [] ∧
    ({ idle with inputs := [.memWrite 0x4000 32 7] } : State).inputs = .memWrite 0x4000 32 7 :: [] ∧ 16 ≠ 8 ∧ 32 ≠ 8 := by
  decide

/-- A reset while a command runs. -/
theorem witness_ResetInputActsAtAnyTime :
    ({ held with seq := some [.waitScl], inputs := [.reset, .engine] } : State).inputs = .reset :: [.engine] := rfl

/-- The invariant's step, at rest and in the middle of START. -/
theorem witness_EveryStepKeepsTheInvariant :
    idle.Inv ∧ (∃ t, step idle = .next t) ∧
    ({ idle with seq := some [.setSda false, .hold .tHigh, .setScl false, .setBus .held, .setCode .ok] } : State).Inv :=
  ⟨⟨by decide, by decide, by decide⟩, ⟨_, rfl⟩, by decide, by decide, by decide⟩

theorem witness_BetweenCommandsCursorAndLinesAreInBounds :
    ({ idle with curRow := 7, curCol := 120 } : State).Inv ∧ ({ idle with curRow := 7, curCol := 120 } : State).busy = false ∧
    idle.bus = .idle ∧ held.Inv ∧ held.busy = false ∧ held.bus = .held :=
  ⟨⟨by decide, by decide, by decide⟩, rfl, rfl, ⟨by decide, by decide, by decide⟩, rfl, rfl⟩

/-- START where SDA falls. -/
def startFalls : State :=
  { idle with seq := some [.setSda false, .hold .tHigh, .setScl false, .setBus .held, .setCode .ok] }

/-- STOP where SDA rises. -/
def stopRises : State :=
  { held with sclOut := true, sdaOut := false, seq := some [.setSda true, .hold .tLow, .setBus .idle, .setCode .ok] }

theorem witness_SdaMovesUnderHighSclOnlyAsCondition :
    (startFalls.Inv ∧ startFalls.inputs.head? ≠ some .reset ∧ startFalls.sclOut = true ∧
      ∃ t, step startFalls = .next t ∧ t.sdaOut ≠ startFalls.sdaOut) ∧
    stopRises.Inv ∧ stopRises.inputs.head? ≠ some .reset ∧ stopRises.sclOut = true ∧
      ∃ t, step stopRises = .next t ∧ t.sdaOut ≠ stopRises.sdaOut :=
  ⟨⟨⟨by decide, by decide, by decide⟩, by decide, rfl, ⟨_, rfl, by decide⟩⟩, ⟨by decide, by decide, by decide⟩, by decide, rfl,
   ⟨_, rfl, by decide⟩⟩

/-- The end of a command with OK and with NACK. -/
theorem witness_CommandEndsWithOkOrNack :
    (({ held with seq := some [] } : State).Inv ∧ ({ held with seq := some [] } : State).busy = true ∧
      ∃ t, step { held with seq := some [] } = .next t ∧ t.busy = false) ∧
    ({ held with code := .nack, seq := some [] } : State).Inv ∧
      ∃ t, step { held with code := .nack, seq := some [] } = .next t ∧ t.busy = false :=
  ⟨⟨⟨by decide, by decide, by decide⟩, rfl, ⟨_, rfl, rfl⟩⟩, ⟨by decide, by decide, by decide⟩, ⟨_, rfl, rfl⟩⟩

theorem witness_ParametersAreNeverWritten : ∃ t, step idle = .next t := ⟨_, rfl⟩

/-- WRBYTE under way for five steps. -/
theorem witness_RunOfACommandKeepsForeignRegisters :
    held.seq = none ∧ held.inputs = [] ∧ ∃ t f, exec .wrbyte held = .next t ∧
      Host.Core.run Sys2Proof.core 5 t = .next f := ⟨rfl, rfl, ⟨_, _, rfl, rfl⟩⟩

/-- Reads and writes, by offset and at both ends of the window by address, between the engine's steps of WRBYTE. -/
def disturbed : State :=
  { held with
    seq := some [.wr 0, .setCode .ok]
    inputs := [.engine, .read 0x2, .write 0x1 7, .memRead 0x4000 8, .memWrite 0x400F 8 1] }

theorem witness_HostAccessesDoNotDisturbARunningCommand :
    (∀ m ∈ disturbed.inputs, m = .engine ∨ m.isHostAccess disturbed.params = true) ∧
    ∃ q, Host.Core.run Sys2Proof.core (disturbed.inputs.count .engine) { disturbed with inputs := [] } = .next q ∧
      q.busy = true := ⟨by decide, _, rfl, rfl⟩

/-- Every case of a step: a next state, the two sides of the window's edges refused by address, a width refused. -/
theorem witness_OnlyForeignAccessesAreRefused :
    (∃ t, step { idle with inputs := [.memRead 0x400F 8] } = .next t) ∧
    step { idle with inputs := [.memRead 0x4010 8] } = .refused (.outsideWindow 0x4010) ∧
    step { idle with inputs := [.memWrite 0x3FFF 8 1] } = .refused (.outsideWindow 0x3FFF) ∧
    step { idle with inputs := [.memRead 0x4000 16] } = .refused (.wideAccess 16) := ⟨⟨_, rfl⟩, rfl, rfl, rfl⟩

theorem witness_EndedRunStaysAsItIs : idle.ended := ⟨rfl, rfl⟩

/-- Both clauses: a scripted level, and SDA driven low. -/
theorem witness_SampleIsTheWiredAnd :
    ({ held with envSda := [true], seq := some [.sample .shift] } : State).seq = some (.sample .shift :: []) ∧
    ({ held with envSda := [true], seq := some [.sample .shift] } : State).inputs = [] ∧
    ({ held with envSda := [true], seq := some [.sample .shift] } : State).envSda = true :: [] ∧
    ({ held with sdaOut := false, seq := some [.sample .shift] } : State).sdaOut = false := ⟨rfl, rfl, rfl, rfl⟩

/-- Held low twice, then released. -/
theorem witness_CommandBlocksWhileSclIsHeldLow :
    ({ idle with envScl := [false, false, true], seq := some [.waitScl] } : State).seq = some (.waitScl :: []) ∧
    ({ idle with envScl := [false, false, true], seq := some [.waitScl] } : State).envScl =
      List.replicate 2 false ++ true :: [] ∧ idle.inputs = [] ∧ idle.sclOut = true := ⟨rfl, rfl, rfl, rfl⟩

theorem witness_ClockBitMakesItsFiveEvents :
    (acking 1 { held with seq := some (clockBit true .shift ++ []) }).seq = some (clockBit true .shift ++ []) ∧
    (acking 1 { held with seq := some (clockBit true .shift ++ []) }).inputs = [] ∧
    (acking 1 { held with seq := some (clockBit true .shift ++ []) }).envSda = [false] ∧
    (acking 1 { held with seq := some (clockBit true .shift ++ []) }).releases 1 :=
  ⟨rfl, rfl, rfl, releases_acking _ (by omega)⟩

theorem witness_NackAbortsTheRestOfTheCommand :
    ({ held with seq := some [.abortIf true, .countByte, .wr 1] } : State).seq =
      some (.abortIf true :: [.countByte, .wr 1]) ∧
    ({ held with seq := some [.abortIf true, .countByte, .wr 1] } : State).inputs = [] := ⟨rfl, rfl⟩

/-- The default times meet the hypothesis, and so does its boundary. -/
theorem witness_HoldsOfSlotAndConditionsAddUp :
    idle.params.tSu ≤ idle.params.tHigh ∧ ({ idle.params with tSu := 5000 } : Config.Params).tSu ≤ idle.params.tHigh := by
  decide

/-- The last cell before the wrap, and the one before it. -/
theorem witness_AdvanceWrapsTheCursor :
    ({ idle with curCol := 120, seq := some [.advance] } : State).seq = some (.advance :: []) ∧
    ({ idle with curCol := 114, seq := some [.advance] } : State).seq = some (.advance :: []) ∧ idle.inputs = [] ∧
    isCell 120 = true ∧ isCell 0 = true := by decide

end Sys2Proof.Tests
end

