-- ==== Sys2Proof/Proofs/Scope.lean ====
section
/-! PROOFS. The statements of 00_scope.md: a sample of SDA is the wired AND, and a NACK ends the command. -/

namespace Sys2Proof.Machine

/-! ### A read of SDA (00_scope.md R14, R15) -/

theorem State.lineSda_of_scripted {s : State} {e : Level} {es : List Level} (h : s.envSda = e :: es) :
    s.lineSda = (s.sdaOut && e) := by simp [State.lineSda, State.envSdaDraw, h]

theorem State.lineSda_of_driven_low {s : State} (h : s.sdaOut = false) : s.lineSda = false := by
  simp [State.lineSda, h]

theorem State.afterSdaDraw_of_scripted {s : State} {e : Level} {es : List Level} (h : s.envSda = e :: es) :
    s.afterSdaDraw = { s with envSda := es } := by simp [State.afterSdaDraw, h]

/-- With no move of the host to come, the step of a running command is the step at the front of its pseudocode. -/
theorem step_of_running {s : State} {m : Micro} {k : List Micro} (h : s.seq = some (m :: k)) (hi : s.inputs = []) :
    step s = .next (runMicro m k s) := by rw [step_of_no_inputs hi, engineStep_of_cons h]

theorem stepSample_of_scripted {s : State} {e : Level} {es : List Level} (use : SlotUse) (k : List Micro)
    (h : s.envSda = e :: es) :
    stepSample use k s = { s with
      envSda := es, trace := .sample (s.sdaOut && e) :: s.trace
      seq := some (afterSample (s.sdaOut && e) use ++ k) } := by
  rw [stepSample, State.lineSda_of_scripted h, State.afterSdaDraw_of_scripted h]
  rfl

/-- Settles O25: the step is `stepSample`; a scripted level fixes both the sample and what is left of the script, and a
line the engine drives low reads 0 whichever draw is used up. -/
theorem sampleIsTheWiredAnd : Obligations.SampleIsTheWiredAnd := by
  intro s use k hseq hin
  have hstep : step s = .next (stepSample use k s) := step_of_running hseq hin
  constructor
  · intro e es henv
    rw [hstep, stepSample_of_scripted use k henv]
  · intro hlow
    refine ⟨stepSample use k s, hstep, ?_, ?_⟩
    · simp [stepSample, State.lineSda_of_driven_low hlow]
    · simp [stepSample, State.lineSda_of_driven_low hlow]

/-! ### Abort (00_scope.md R16; 41_bus_engine.md R78; 60_exceptions.md R107) -/

/-- The pseudocode `k` still to come is dropped, `ERR.CODE` is recorded and the command ends. -/
theorem steps_abort {s : State} {k : List Micro} (h : s.seq = some (.abortIf true :: k)) :
    Steps s { s with seq := none, code := .nack } := by
  have hdrop : engineStep s = s.abort .nack := engineStep_of_cons h
  exact Steps.head hdrop (Steps.head rfl (Steps.head rfl (Steps.refl _)))

/-- Settles O28: the abort's steps, as a run of the machine with no move of the host to come. -/
theorem nackAbortsTheRestOfTheCommand : Obligations.NackAbortsTheRestOfTheCommand :=
  fun _ _ hseq hin => (steps_abort hseq).runs hin

end Sys2Proof.Machine
end

