-- ==== Sys2Proof/Proofs/State.lean ====
section
/-! PROOFS. The statements of 10_state.md: the values after reset, the invariant of the block (it holds after reset, every
step keeps it, and what it says between commands), `ERR.OVR`, the step that issues a command, and the registers a command's
run leaves alone. -/

namespace Sys2Proof.Machine

/-! ### The engine keeps the invariant -/

@[simp] theorem State.lines_emit (s : State) (e : LineEvent) : (State.emit e s).lines = s.lines := rfl

@[simp] theorem State.lines_afterSclDraw (s : State) : s.afterSclDraw.lines = s.lines := by simp [State.lines]

@[simp] theorem State.lines_afterSdaDraw (s : State) : s.afterSdaDraw.lines = s.lines := by simp [State.lines]

/-- Less is known of the lines after a loop, whose last slot may have been at either level. -/
theorem Lines.forget_below (a : Lines) : ({ a with sda := none, count := false } : Lines).Below a :=
  ⟨rfl, .inl rfl, rfl, by simp, rfl⟩

/-- A command that goes on with disciplined pseudocode. -/
theorem State.Inv.goOn {s : State} {k : List Micro} (hcell : isCell s.curCol = true) (hcount : s.bitcnt.toNat ≤ 8)
    (hk : disciplined s.lines k = true) : (s.goOn k).Inv := ⟨hcell, hcount, hk⟩

/-- The column of the next cell, short of the wrap, is a cell again (R98, R99). -/
theorem isCell_advancedColumn {c : Col} (h : isCell c = true) (hw : ¬ Config.wrapCol ≤ advancedColumn c) :
    isCell (BitVec.ofNat 7 (advancedColumn c)) = true := by
  simp only [isCell, advancedColumn, Config.wrapCol, Config.glyphW, Bool.and_eq_true, beq_iff_eq, decide_eq_true_eq,
    BitVec.toNat_ofNat, Nat.reducePow] at h hw ⊢
  have hlt : c.toNat + 6 < 128 := by omega
  rw [Nat.mod_eq_of_lt hlt]
  omega

/-- `Advance()` writes only cells to the cursor. -/
theorem disciplined_advanceWrites {a : Lines} {r : Row} {c : Col} {k : List Micro} (hc : isCell c = true)
    (hk : disciplined a k = true) : disciplined a (advanceWrites r c ++ k) = true := by
  unfold advanceWrites
  split
  · simp [disciplined, hk, show isCell 0#7 = true from rfl]
  · next hw => simp [disciplined, hk, isCell_advancedColumn hc hw]

/-- An abort leaves the transaction open with SCL low, as a command may end (R78, R107). -/
theorem disciplined_abort {a : Lines} (h : a.maySend = true) : disciplined a [.setCode .nack] = true := by
  simp only [Lines.maySend, Bool.and_eq_true, Bool.not_eq_true', beq_iff_eq] at h
  obtain ⟨hscl, hbus⟩ := h
  simp [disciplined, Lines.rest, hscl, hbus]

/-- A read of SCL keeps the invariant, whether the command goes on or stays where it is. -/
theorem stepWaitScl_inv {k : List Micro} {s : State} (h : s.Inv) (hk : disciplined s.lines k = true) :
    (stepWaitScl k s).Inv := by
  unfold stepWaitScl
  split
  · exact .goOn (by simpa using h.cell) (by simpa using h.count) (by simpa using hk)
  · exact h.congr (by simp) (by simp) (by simp) (by simp)

theorem stepSample_inv {use : SlotUse} {k : List Micro} {s : State} (h : s.Inv)
    (hd : disciplined s.lines (.sample use :: k) = true) : (stepSample use k s).Inv :=
  .goOn (by simpa using h.cell) (by simpa using h.count) (by simpa using disciplined_afterSample _ _ _ _ hd)

/-- The two loops: the end leaves less known of the lines, and a further slot is made with `_bitcnt` above 0. -/
theorem stepLoop_inv {k : List Micro} {s : State} (h : s.Inv) (hscl : s.lines.scl = false)
    (hk : disciplined { s.lines with sda := none, count := false } k = true) :
    (stepOutLoop k s).Inv ∧ (stepInLoop k s).Inv := by
  by_cases hn : s.bitcnt = 0
  · have hend : (s.goOn k).Inv := .goOn h.cell h.count (disciplined_mono hk (Lines.forget_below _))
    simp only [stepOutLoop, stepInLoop, if_pos hn]
    exact ⟨hend, hend⟩
  · have hpos : s.lines.count = true := decide_eq_true (BitVec.toNat_ne.1 hn)
    have hslot (v : Level) := disciplined_loopSlot s.lines v k hpos hscl hk
    simp only [stepOutLoop, stepInLoop, if_neg hn]
    exact ⟨.goOn h.cell h.count (hslot _).1, .goOn h.cell h.count (hslot _).2⟩

theorem stepZeros_inv {n : Nat} {k : List Micro} {s : State} (h : s.Inv)
    (hd : disciplined s.lines (.zeros n :: k) = true) : (stepZeros n k s).Inv := by
  simp only [disciplined, Bool.and_eq_true] at hd
  obtain ⟨hsend, hk⟩ := hd
  cases n with
  | zero => exact .goOn h.cell h.count (disciplined_mono hk (Lines.forget_below _))
  | succ n =>
    refine .goOn h.cell h.count ?_
    simp only [disciplined, Bool.and_eq_true]
    exact ⟨hsend, hsend, hk⟩

/-- One step of disciplined pseudocode keeps the invariant. -/
theorem runMicro_inv {m : Micro} {k : List Micro} {s : State} (h : s.Inv)
    (hd : disciplined s.lines (m :: k) = true) : (runMicro m k s).Inv := by
  have hcell := h.cell
  have hcount := h.count
  cases m with
  | sample use => exact stepSample_inv h hd
  | outLoop =>
    obtain ⟨hscl, hk⟩ := Bool.and_eq_true_iff.1 hd
    exact (stepLoop_inv h (by simpa using hscl) hk).1
  | inLoop =>
    obtain ⟨hscl, hk⟩ := Bool.and_eq_true_iff.1 hd
    exact (stepLoop_inv h (by simpa using hscl) hk).2
  | zeros n => exact stepZeros_inv h hd
  | wr b => exact .goOn hcell hcount (disciplined_wrBody _ b k hd)
  | advance => exact .goOn hcell hcount (disciplined_advanceWrites hcell hd)
  | setScl | hold | loadShift | shift | recordAck | countByte | storeData | storeShift | setRow | setCode =>
    exact .goOn hcell hcount hd
  | waitScl =>
    obtain ⟨-, hk⟩ := Bool.and_eq_true_iff.1 hd
    exact stepWaitScl_inv h hk
  | setSda | setBus =>
    obtain ⟨-, hk⟩ := Bool.and_eq_true_iff.1 hd
    exact .goOn hcell hcount hk
  | setCol c =>
    obtain ⟨hc, hk⟩ := Bool.and_eq_true_iff.1 hd
    exact .goOn hc hcount hk
  | loadCount n =>
    obtain ⟨hn, hk⟩ := Bool.and_eq_true_iff.1 hd
    exact .goOn hcell (of_decide_eq_true hn) hk
  | countDown =>
    obtain ⟨hpos, hk⟩ := Bool.and_eq_true_iff.1 hd
    have hpos : s.bitcnt.toNat ≠ 0 := of_decide_eq_true hpos
    have hle : (s.bitcnt - 1).toNat ≤ 8 := by bv_omega
    exact .goOn hcell hle (disciplined_mono hk ⟨rfl, .inr rfl, rfl, by simp, rfl⟩)
  | abortIf b =>
    simp only [disciplined, Bool.and_eq_true] at hd
    obtain ⟨⟨hsend, -⟩, hk⟩ := hd
    cases b with
    | true => exact .goOn hcell hcount (disciplined_abort hsend)
    | false => exact .goOn hcell hcount hk

/-- The command's end leaves the lines at rest. -/
theorem endCommand_inv {s : State} (h : s.Inv) (hd : disciplined s.lines [] = true) : s.endCommand.Inv :=
  ⟨h.cell, h.count, (Bool.and_eq_true_iff.1 hd).1⟩

theorem engineStep_inv {s : State} (h : s.Inv) : (engineStep s).Inv := by
  have hd := h.order
  unfold State.inOrder at hd
  cases hs : s.seq with
  | none => rwa [engineStep_of_none hs]
  | some l =>
    simp only [hs] at hd
    cases l with
    | nil => rw [engineStep_of_nil hs]; exact endCommand_inv h hd
    | cons m k => rw [engineStep_of_cons hs]; exact runMicro_inv h hd

/-! ### The host and a reset keep the invariant -/

/-- With no command running, a rejection keeps the invariant: `ERR.CODE` says nothing of the lines. -/
theorem reject_inv {s : State} (c : ErrCode) (h : s.Inv) (hs : s.seq = none) : (s.reject c).Inv := by
  refine ⟨h.cell, h.count, ?_⟩
  have ho := h.order
  simp only [State.inOrder, State.reject_seq, hs] at ho ⊢
  exact ho

/-- The pseudocode `exec` issues for an instruction, from the state at acceptance. -/
def commandScript (i : Instr) (s : State) : List Micro :=
  match i with
  | .start      => startCond
  | .stop       => stopCond
  | .wrbyte     => [.wr s.data]
  | .rdbyte a   => shiftInByte ++ ackSlot a .ackOfReceived ++ [.storeShift]
  | .ackbit d   => ackSlot d .ackToData
  | .connect r  => conn (deviceAddress s.data) r
  | .ctrlbyte k => [.wr (controlByte s.params k)]
  | .init       => conn s.params.displayAddr .write ++ [.wr s.params.ctrlCmd] ++
      (scriptBytes s.params.initScript).map .wr ++ stopCond
  | .setwin     => window s.params s.wrow s.wcol
  | .clear      => window s.params 0 0 ++ conn s.params.displayAddr .write ++ [.wr s.params.ctrlData] ++
      [.zeros Config.clearBytes] ++ stopCond ++ [.setRow 0, .setCol 0]
  | .glyph      => window s.params s.curRow s.curCol ++ conn s.params.displayAddr .write ++
      [.wr s.params.ctrlData] ++ (glyphBytes s).map .wr ++ stopCond ++ [.advance]

theorem exec_eq_issue_commandScript (i : Instr) (s : State) :
    exec i s = issue (requiredBus i) (commandScript i s) s := by
  cases i <;> rfl

theorem exec_of_ready {i : Instr} {s : State} (hs : s.seq = none) (hb : s.bus = requiredBus i) :
    exec i s = .next (s.accept (commandScript i s)) := by
  rw [exec_eq_issue_commandScript, issue_of_ready hs hb]

theorem exec_of_wrong_state {i : Instr} {s : State} (hs : s.seq = none) (hb : s.bus ≠ requiredBus i) :
    exec i s = .next (s.reject .state) := by
  rw [exec_eq_issue_commandScript, issue_of_wrong_state hs hb]

/-- Issuing an instruction keeps the invariant: the pseudocode it starts is disciplined. -/
theorem exec_inv {i : Instr} {s t : State} (h : s.Inv) (he : exec i s = .next t) : t.Inv := by
  rcases exec_cases he with ⟨-, rfl⟩ | ⟨hs, rfl⟩ | ⟨hs, hbusy, ht⟩
  · exact h.congr rfl rfl rfl rfl
  · exact reject_inv _ h hs
  · by_cases hb : s.bus = requiredBus i
    · have hrest : s.lines.rest = true := by simpa [State.inOrder, hs] using h.order
      exact ⟨by rw [ht]; exact h.cell, by rw [ht]; exact h.count, disciplined_script i s t hs hrest hb he⟩
    · rw [exec_of_wrong_state hs hb] at he
      cases he
      exact reject_inv _ h hs

theorem writeReg_inv {off : Offset} {v : Byte} {s t : State} (h : s.Inv) (hw : writeReg off v s = .next t) : t.Inv := by
  rcases writeReg_cases hw with ⟨-, rfl⟩ | ⟨-, i, he⟩ | ⟨hs, rfl⟩ | ⟨-, ht, -⟩
  · exact h.congr rfl rfl rfl rfl
  · exact exec_inv h he
  · exact reject_inv _ h hs
  · rw [ht]; exact h.congr rfl rfl rfl rfl

/-- Settles O16: after reset the cursor is at column 0, `_bitcnt` is 0 and IDLE has both lines released. -/
theorem resetStateMeetsInvariant : Obligations.ResetStateMeetsInvariant := ⟨by decide, by decide, by decide⟩

/-- Settles O17, by the cases of a step: the engine's step by the pseudocode's front step, the host's write by what a write
can do, a read, and a reset. -/
theorem everyStepKeepsTheInvariant : Obligations.EveryStepKeepsTheInvariant := by
  intro s t h hstep
  rcases step_cases hstep with ⟨r, rfl⟩ | ⟨m, rest, -, ⟨rd, rfl⟩ | ⟨off, v, -, hw⟩ | ⟨-, rfl⟩⟩
  · exact (engineStep_inv h).congr rfl rfl rfl rfl
  · exact h.congr rfl rfl rfl rfl
  · exact writeReg_inv (s := { s with inputs := rest }) (h.congr rfl rfl rfl rfl) hw
  · exact resetStateMeetsInvariant.congr rfl rfl rfl rfl

/-! ### What the invariant says between commands -/

/-- Lines at rest: IDLE has both released, HELD has SCL low (R34). -/
theorem Lines.rest_iff (a : Lines) :
    a.rest = true ↔ (a.bus = .idle → a.scl = true ∧ a.sda = some true) ∧ (a.bus = .held → a.scl = false) := by
  unfold Lines.rest
  cases a.bus <;> simp

/-- Settles O18: the cell and the lines at rest are what the invariant says with no command running. -/
theorem betweenCommandsCursorAndLinesAreInBounds : Obligations.BetweenCommandsCursorAndLinesAreInBounds := by
  intro s h hbusy
  have hcell := h.cell
  simp only [isCell, Bool.and_eq_true, beq_iff_eq, decide_eq_true_eq] at hcell
  obtain ⟨hmod, hle⟩ := hcell
  have hrest : s.lines.rest = true := by simpa [State.inOrder, (State.busy_eq_false_iff s).1 hbusy] using h.order
  obtain ⟨hidle, hheld⟩ := (Lines.rest_iff _).1 hrest
  refine ⟨by omega, hmod, hle, by omega, fun hb => ?_, hheld⟩
  obtain ⟨hscl, hsda⟩ := hidle hb
  exact ⟨hscl, Option.some.inj hsda⟩

/-! ### The values after reset (R40) -/

/-- Settles O14: `State.reset` is a literal, and no register shows a parameter. -/
theorem resetValuesAreAsTabled : Obligations.ResetValuesAreAsTabled := by
  unfold Obligations.ResetValuesAreAsTabled
  decide

/-! ### The step that issues a command (R36; 40_command_issue.md R66) -/

theorem writeReg_cmd_of_decode {s : State} {w : Byte} {i : Instr} (hs : s.seq = none) (hw : decode w = .ok i) :
    writeReg 0x0 w s = exec i s := by
  have hidle : writeReg 0x0 w s = issueWord w s := by simp [writeReg, State.busy_of_none hs, writeIdle, Reg.ofOffset]
  rw [hidle, issueWord, hw]

/-- A command word is one byte, so the table's number of 8 bits is the word itself. -/
theorem tableWordByte_toNat (w : Byte) : tableWordByte 8 w.toNat = w := by
  rw [tableWordByte, Nat.mod_eq_of_lt w.isLt, BitVec.ofNat_toNat, BitVec.setWidth_eq]

theorem step_of_cmdWrite {s : State} {w : Byte} {i : Instr} {rest : List Input} (hs : s.seq = none)
    (hi : s.inputs = .write 0x0 w :: rest) (hw : decode w = .ok i) : step s = exec i { s with inputs := rest } := by
  have hmove : step s = writeReg 0x0 w { s with inputs := rest } := by simp [step, nextMove, hi, performInput]
  rw [hmove]
  exact writeReg_cmd_of_decode hs hw

/-- Settles O6: the move is a write to `CMD` while not busy, which is the decoded instruction; `withFetchWord` puts such a
move in front. -/
theorem stepRunsTheDecodedInstruction : Obligations.StepRunsTheDecodedInstruction := by
  refine ⟨fun s w i rest hs hi hw => step_of_cmdWrite hs hi hw, fun s w i hw => ?_⟩
  have hi : (s.withFetchWord 8 w.toNat).inputs = .write 0x0 w :: s.inputs := by
    rw [State.withFetchWord, tableWordByte_toNat]
  exact step_of_cmdWrite rfl hi hw

/-! ### `ERR.OVR` (R27) -/

theorem writeReg_of_busy {s : State} (off : Offset) (v : Byte) (h : s.busy = true) :
    writeReg off v s = .next s.overrun := by simp [writeReg, h]

theorem writeReg_err_of_idle {s : State} (v : Byte) (h : s.busy = false) :
    writeReg 0x3 v s = .next { s with ovr := ovrAfterWrite s.ovr v } := by
  simp [writeReg, h, writeIdle, Reg.ofOffset]

/-- Only a write to `ERR` with bit 7 = 1, while not busy, clears `ERR.OVR`. -/
theorem writeReg_clears_ovr {off : Offset} {v : Byte} {s t : State} (hw : writeReg off v s = .next t)
    (hs : s.ovr = true) (ht : t.ovr = false) : s.busy = false ∧ off = 3 ∧ v.getLsbD 7 = true := by
  have hkept (h : t.ovr = s.ovr) : False := by simp [h, hs] at ht
  rcases writeReg_cases hw with ⟨-, rfl⟩ | ⟨-, i, he⟩ | ⟨-, rfl⟩ | ⟨hseq, -, hovr | ⟨hoff, hovr⟩⟩
  · cases ht
  · rcases exec_cases he with ⟨-, rfl⟩ | ⟨-, rfl⟩ | ⟨-, -, h⟩
    · cases ht
    · exact (hkept rfl).elim
    · exact (hkept (by rw [h])).elim
  · exact (hkept rfl).elim
  · exact (hkept hovr).elim
  · exact ⟨State.busy_of_none hseq, hoff, by simpa [hovr, ovrAfterWrite, hs] using ht⟩

/-- The address of a register is `REG_BASE` plus its offset (20_memory.md R42). -/
theorem addr_of_windowOffset {p : Config.Params} {a : Nat} {off : Offset} (h : windowOffset p a = some off) :
    a = p.regBase + off.toNat := by
  unfold windowOffset at h
  split at h
  · next hin =>
    cases h
    have hlt : a - p.regBase < 16 := by omega
    simp only [BitVec.toNat_ofNat, Nat.reducePow, Nat.mod_eq_of_lt hlt]
    omega
  · cases h

/-- Settles O11: a write while busy sets the flag, a write to `ERR` while not busy clears it by bit 7, and of the cases of a
step only a reset and such a write take it from 1 to 0. -/
theorem overrunFlagIsSticky : Obligations.OverrunFlagIsSticky := by
  refine ⟨fun s off v h => writeReg_of_busy off v h, fun s v h => ⟨fun hv => ?_, fun hv => ?_⟩, fun s t hstep hs ht => ?_⟩
  · rw [writeReg_err_of_idle v h, ovrAfterWrite, hv, Bool.not_true, Bool.and_false]
  · rw [writeReg_err_of_idle v h, ovrAfterWrite, hv, Bool.not_false, Bool.and_true]
  · rcases step_cases hstep with ⟨r, rfl⟩ | ⟨m, rest, hi, ⟨rd, rfl⟩ | ⟨off, v, hm, hw⟩ | ⟨rfl, -⟩⟩
    · simp [hs] at ht
    · simp [hs] at ht
    · obtain ⟨hidle, rfl, hv⟩ := writeReg_clears_ovr hw hs ht
      refine .inr ⟨hidle, v, hv, ?_⟩
      rcases hm with rfl | ⟨a, n, rfl, rfl, ha⟩
      · exact .inl (by simp [hi])
      · exact .inr ⟨a, n, by simp [hi], addr_of_windowOffset ha, rfl⟩
    · exact .inl (by simp [hi])

/-! ### The registers a command's run leaves alone (R39) -/

/-- The host-visible registers that some or all commands may not write, as R39's table groups them. -/
inductive RegGroup where
  /-- `ERR.OVR`, `WROW`, `WCOL` and the glyph buffer, which no command writes. -/
  | hostOnly
  /-- `DATA`. -/
  | data
  /-- `CUR_ROW` and `CUR_COL`. -/
  | cursor
  /-- `STATUS.ACK`. -/
  | ack

/-- What a state shows of a group: the reset state but for the group's registers. -/
def RegGroup.view : RegGroup → State → State
  | .hostOnly, s => { State.reset with
      ovr := s.ovr, wrow := s.wrow, wcol := s.wcol, gbuf0 := s.gbuf0, gbuf1 := s.gbuf1, gbuf2 := s.gbuf2
      gbuf3 := s.gbuf3, gbuf4 := s.gbuf4, gbuf5 := s.gbuf5 }
  | .data, s     => { State.reset with data := s.data }
  | .cursor, s   => { State.reset with curRow := s.curRow, curCol := s.curCol }
  | .ack, s      => { State.reset with ack := s.ack }

theorem RegGroup.view_hostOnly_iff (s t : State) : RegGroup.hostOnly.view t = RegGroup.hostOnly.view s ↔
    t.ovr = s.ovr ∧ t.wrow = s.wrow ∧ t.wcol = s.wcol ∧ t.gbuf0 = s.gbuf0 ∧ t.gbuf1 = s.gbuf1 ∧ t.gbuf2 = s.gbuf2 ∧
    t.gbuf3 = s.gbuf3 ∧ t.gbuf4 = s.gbuf4 ∧ t.gbuf5 = s.gbuf5 := by
  simp [RegGroup.view]

theorem RegGroup.view_data_iff (s t : State) : RegGroup.data.view t = RegGroup.data.view s ↔ t.data = s.data := by
  simp [RegGroup.view]

theorem RegGroup.view_cursor_iff (s t : State) :
    RegGroup.cursor.view t = RegGroup.cursor.view s ↔ t.cursor = s.cursor := by
  simp [RegGroup.view, State.cursor]

theorem RegGroup.view_ack_iff (s t : State) : RegGroup.ack.view t = RegGroup.ack.view s ↔ t.ack = s.ack := by
  simp [RegGroup.view]

/-- A step of the pseudocode leaves the group alone, and so does all it unfolds into. -/
def Micro.spares (g : RegGroup) (m : Micro) : Bool :=
  match g, m with
  | .data, .sample use  => use != .ackToData
  | .data, .storeData _ => false
  | .data, .storeShift  => false
  | .cursor, .setRow _  => false
  | .cursor, .setCol _  => false
  | .cursor, .advance   => false
  | .ack, .sample use   => use == .shift
  | .ack, .recordAck _  => false
  | .ack, .wr _         => false
  | .ack, .zeros _      => false
  | _, _                => true

/-- The command may not write the group (R39's table). -/
def commandSpares (g : RegGroup) (i : Instr) : Bool :=
  match g, i with
  | .data, .rdbyte _ => false
  | .data, .ackbit _ => false
  | .cursor, .clear  => false
  | .cursor, .glyph  => false
  | .ack, .start     => true
  | .ack, .stop      => true
  | .ack, _          => false
  | _, _             => true

/-- What is left of the running command leaves the group alone. -/
def State.spares (g : RegGroup) (s : State) : Prop :=
  ∀ k, s.seq = some k → k.all (Micro.spares g) = true

theorem State.spares_of_none {g : RegGroup} {s : State} (h : s.seq = none) : s.spares g := by simp [State.spares, h]

theorem State.spares_goOn {g : RegGroup} {s : State} {k : List Micro} (h : k.all (Micro.spares g) = true) :
    (s.goOn k).spares g := by simpa [State.spares] using h

@[simp] theorem RegGroup.view_goOn (g : RegGroup) (s : State) (k : List Micro) : g.view (s.goOn k) = g.view s := by
  cases g <;> rfl

@[simp] theorem RegGroup.view_emit (g : RegGroup) (s : State) (e : LineEvent) :
    g.view (State.emit e s) = g.view s := by
  cases g <;> rfl

@[simp] theorem RegGroup.view_afterSclDraw (g : RegGroup) (s : State) : g.view s.afterSclDraw = g.view s := by
  cases g <;> simp [RegGroup.view]

@[simp] theorem RegGroup.view_afterSdaDraw (g : RegGroup) (s : State) : g.view s.afterSdaDraw = g.view s := by
  cases g <;> simp [RegGroup.view]

/-- A step of the pseudocode that spares a group changes nothing of it. -/
theorem runMicro_view {g : RegGroup} {m : Micro} (k : List Micro) (s : State) (hm : m.spares g = true) :
    g.view (runMicro m k s) = g.view s := by
  cases m with
  | waitScl => simp only [runMicro, stepWaitScl]; split <;> simp
  | sample use => simp [runMicro, stepSample]
  | outLoop => simp only [runMicro, stepOutLoop]; split <;> simp
  | inLoop => simp only [runMicro, stepInLoop]; split <;> simp
  | zeros n => cases n <;> simp [runMicro, stepZeros]
  | abortIf b => cases b <;> simp [runMicro, State.abort]
  | _ => cases g <;> simp_all [Micro.spares, runMicro, RegGroup.view]

/-- The pieces the engine unfolds spare what they are unfolded from spares. -/
theorem afterSample_spares {g : RegGroup} {use : SlotUse} (b : Level) (h : (Micro.sample use).spares g = true) :
    (afterSample b use).all (Micro.spares g) = true := by
  cases g with
  | hostOnly | cursor => cases use <;> rfl
  | data =>
    cases use with
    | ackToData => cases h
    | _ => rfl
  | ack =>
    cases use with
    | shift => rfl
    | _ => cases h

theorem wrBody_spares {g : RegGroup} (b : Byte) (h : (Micro.wr b).spares g = true) :
    (wrBody b).all (Micro.spares g) = true := by
  cases g with
  | ack => cases h
  | _ => rfl

theorem clockBit_shift_spares (g : RegGroup) (v : Level) : (clockBit v .shift).all (Micro.spares g) = true := by
  cases g <;> rfl

theorem advanceWrites_spares {g : RegGroup} (r : Row) (c : Col) (h : Micro.advance.spares g = true) :
    (advanceWrites r c).all (Micro.spares g) = true := by
  cases g with
  | cursor => cases h
  | _ => unfold advanceWrites; split <;> rfl

/-- A step that spares a group, with sparing steps after it, leaves sparing steps to come. -/
theorem runMicro_spares {g : RegGroup} {m : Micro} {k : List Micro} {s : State} (hs : s.seq = some (m :: k))
    (hm : m.spares g = true) (hk : k.all (Micro.spares g) = true) : (runMicro m k s).spares g := by
  have hall : (m :: k).all (Micro.spares g) = true := by rw [List.all_cons, hm, hk]; rfl
  have happ {p : List Micro} (hp : p.all (Micro.spares g) = true) {k' : List Micro}
      (hk' : k'.all (Micro.spares g) = true) : (p ++ k').all (Micro.spares g) = true := by
    rw [List.all_append, hp, hk']; rfl
  cases m with
  | waitScl =>
    simp only [runMicro, stepWaitScl]
    split
    · exact State.spares_goOn hk
    · simpa [State.spares, hs] using hall
  | sample use => exact State.spares_goOn (happ (afterSample_spares _ hm) hk)
  | wr b => exact State.spares_goOn (happ (wrBody_spares b hm) hk)
  | advance => exact State.spares_goOn (happ (advanceWrites_spares _ _ hm) hk)
  | outLoop =>
    simp only [runMicro, stepOutLoop]
    split
    · exact State.spares_goOn hk
    · exact State.spares_goOn (happ (clockBit_shift_spares g _) hall)
  | inLoop =>
    simp only [runMicro, stepInLoop]
    split
    · exact State.spares_goOn hk
    · exact State.spares_goOn (happ (clockBit_shift_spares g _) hall)
  | zeros n =>
    cases n with
    | zero => exact State.spares_goOn hk
    | succ n =>
      have hpair : [Micro.wr 0x00, .zeros n].all (Micro.spares g) = true := by
        cases g with
        | ack => cases hm
        | _ => rfl
      exact State.spares_goOn (happ hpair hk)
  | abortIf b =>
    cases b with
    | true => exact State.spares_goOn (by cases g <;> rfl)
    | false => exact State.spares_goOn hk
  | _ => exact State.spares_goOn hk

/-- A command's pseudocode, with its normal end, spares the groups the command may not write. -/
theorem commandScript_spares {g : RegGroup} {i : Instr} (s : State) (h : commandSpares g i = true) :
    (commandScript i s ++ [Micro.setCode .ok]).all (Micro.spares g) = true := by
  cases g with
  | hostOnly => simp [Micro.spares]
  | data =>
    cases i with
    | rdbyte | ackbit => cases h
    | init => simp [commandScript, Micro.spares, conn, startCond, stopCond]
    | _ => rfl
  | cursor =>
    cases i with
    | clear | glyph => cases h
    | init => simp [commandScript, Micro.spares, conn, startCond, stopCond]
    | _ => rfl
  | ack =>
    cases i with
    | start | stop => rfl
    | _ => cases h

theorem exec_spares {g : RegGroup} {i : Instr} {s t : State} (hs : s.seq = none) (hi : commandSpares g i = true)
    (he : exec i s = .next t) : t.spares g := by
  by_cases hb : s.bus = requiredBus i
  · rw [exec_of_ready hs hb] at he
    cases he
    exact State.spares_goOn (commandScript_spares s hi)
  · rw [exec_of_wrong_state hs hb] at he
    cases he
    exact State.spares_of_none hs

/-- Issuing an instruction while no command runs leaves every group and the moves of the host alone. -/
theorem exec_view {i : Instr} {s t : State} (hs : s.seq = none) (he : exec i s = .next t) (g : RegGroup) :
    g.view t = g.view s ∧ t.inputs = s.inputs := by
  rcases exec_cases he with ⟨hbusy, -⟩ | ⟨-, rfl⟩ | ⟨-, -, ht⟩
  · simp [State.busy_of_none hs] at hbusy
  · cases g <;> exact ⟨rfl, rfl⟩
  · rw [ht]; cases g <;> exact ⟨rfl, rfl⟩

/-- The engine's run leaves a group alone that what is left of the command spares. -/
theorem iterate_engineStep_view {g : RegGroup} {s : State} (h : s.spares g) (n : Nat) :
    g.view (engineStep^[n] s) = g.view s := by
  cases hs : s.seq with
  | none => rw [iterate_engineStep_of_none hs]
  | some k =>
    exact iterate_engineStep_keeps g.view (Micro.spares g)
      (fun m k s hs hm hk => ⟨runMicro_view k s hm, runMicro_spares hs hm hk⟩) (fun s => by cases g <;> rfl) n s k hs (h k hs)

/-- At every point of a command's run a group that the command may not write is as before it. -/
theorem run_view {g : RegGroup} {i : Instr} {s t f : State} {n : Nat} (hs : s.seq = none) (hin : s.inputs = [])
    (he : exec i s = .next t) (hrun : Host.Core.run Sys2Proof.core n t = .next f) (hi : commandSpares g i = true) :
    g.view f = g.view s := by
  obtain ⟨hview, hmoves⟩ := exec_view hs he g
  rw [run_of_no_inputs (hmoves.trans hin)] at hrun
  cases hrun
  rw [iterate_engineStep_view (exec_spares hs hi he), hview]

/-- Settles O22: each clause is the group of R39's table that the command may not write. -/
theorem runOfACommandKeepsForeignRegisters : Obligations.RunOfACommandKeepsForeignRegisters := by
  intro i s t f n hs hin he hrun
  have hkept (g : RegGroup) (hi : commandSpares g i = true) : g.view f = g.view s := run_view hs hin he hrun hi
  have hhost := hkept .hostOnly (by cases i <;> rfl)
  obtain ⟨hovr, hwrow, hwcol, h0, h1, h2, h3, h4, h5⟩ := (RegGroup.view_hostOnly_iff s f).1 hhost
  refine ⟨hovr, hwrow, hwcol, h0, h1, h2, h3, h4, h5, fun hrd hab => ?_, fun hcl hgl => ?_, fun hss => ?_⟩
  · exact (RegGroup.view_data_iff s f).1 (hkept .data (by cases i <;> simp_all [commandSpares]))
  · exact (RegGroup.view_cursor_iff s f).1 (hkept .cursor (by cases i <;> simp_all [commandSpares]))
  · exact (RegGroup.view_ack_iff s f).1 (hkept .ack (by rcases hss with rfl | rfl <;> rfl))

end Sys2Proof.Machine
end

