-- ==== Sys2Proof/Proofs/Memory.lean ====
section
/-! PROOFS. The statements of 20_memory.md: which host accesses are refused, the window's addresses, the parameters that
nothing writes, and host accesses while a command runs. -/

namespace Sys2Proof.Machine

/-! ### The window's addresses (R42, R43) -/

/-- `REG_BASE + off` is the address of the register at `off`. -/
theorem windowOffset_regBase_add (p : Config.Params) (off : Offset) :
    windowOffset p (p.regBase + off.toNat) = some off := by
  have hin : p.regBase ≤ p.regBase + off.toNat ∧ p.regBase + off.toNat < p.regBase + 16 := by
    have := off.isLt
    omega
  rw [windowOffset, if_pos hin, Nat.add_sub_cancel_left, BitVec.ofNat_toNat, BitVec.setWidth_eq]

theorem not_in_window_of_windowOffset_eq_none {p : Config.Params} {a : Nat} (h : windowOffset p a = none) :
    ¬ (p.regBase ≤ a ∧ a < p.regBase + 16) := by
  intro hin
  rw [windowOffset, if_pos hin] at h
  cases h

/-! ### What an access by address is -/

/-- The next move of the schedule, with the moves after it still to come. -/
theorem step_of_input {s : State} {m : Input} {rest : List Input} (h : s.inputs = m :: rest) :
    step s = performInput m { s with inputs := rest } := by rw [step, nextMove, h]

theorem performInput_memRead_of_wide {b : Nat} (hb : b ≠ 8) (a : Nat) (s : State) :
    performInput (.memRead a b) s = .refused (.wideAccess b) := by rw [performInput, memRead, if_neg hb]

theorem performInput_memWrite_of_wide {b : Nat} (hb : b ≠ 8) (a v : Nat) (s : State) :
    performInput (.memWrite a b v) s = .refused (.wideAccess b) := by rw [performInput, memWrite, if_neg hb]

theorem performInput_memRead_of_outside {a : Nat} {s : State} (h : windowOffset s.params a = none) :
    performInput (.memRead a 8) s = .refused (.outsideWindow a) := by simp [performInput, memRead, h]

theorem performInput_memWrite_of_outside {a : Nat} {s : State} (h : windowOffset s.params a = none) (v : Nat) :
    performInput (.memWrite a 8 v) s = .refused (.outsideWindow a) := by simp [performInput, memWrite, h]

theorem performInput_memRead_of_window {a : Nat} {off : Offset} {s : State} (h : windowOffset s.params a = some off) :
    performInput (.memRead a 8) s = performInput (.read off) s := by simp [performInput, memRead, h]

theorem performInput_memWrite_of_window {a : Nat} {off : Offset} {s : State} (h : windowOffset s.params a = some off)
    (v : Nat) : performInput (.memWrite a 8 v) s = performInput (.write off (BitVec.ofNat 8 v)) s := by
  simp [performInput, memWrite, h]

/-- Settles O12: a width other than 8 bits is refused before the address is looked at. -/
theorem wideAccessIsRefused : Obligations.WideAccessIsRefused := by
  intro s a b v rest hb
  constructor
  · intro hi
    rw [step_of_input hi, performInput_memRead_of_wide hb]
  · intro hi
    rw [step_of_input hi, performInput_memWrite_of_wide hb]

/-- Settles O13: the window holds `REG_BASE + off` as `off`, and a byte is its own value modulo 256. -/
theorem windowAddressReachesItsRegister : Obligations.WindowAddressReachesItsRegister := by
  intro s off v
  have hw := windowOffset_regBase_add s.params off
  constructor
  · exact performInput_memRead_of_window hw
  · rw [performInput_memWrite_of_window hw, BitVec.ofNat_toNat, BitVec.setWidth_eq]

/-! ### Only foreign accesses are refused (R47, R43) -/

theorem exec_answers (i : Instr) (s : State) : ∃ t, exec i s = .next t := by
  rw [exec_eq_issue_commandScript]
  rcases issue_cases (requiredBus i) (commandScript i s) s with ⟨-, h⟩ | ⟨-, -, h⟩ | ⟨-, -, h⟩ <;> exact ⟨_, h⟩

theorem issueWord_answers (w : Byte) (s : State) : ∃ t, issueWord w s = .next t := by
  unfold issueWord
  split
  · exact exec_answers _ s
  · exact ⟨_, rfl⟩

theorem writeReg_answers (off : Offset) (v : Byte) (s : State) : ∃ t, writeReg off v s = .next t := by
  unfold writeReg
  split
  · exact ⟨_, rfl⟩
  · unfold writeIdle
    cases Reg.ofOffset off with
    | cmd => exact issueWord_answers v s
    | _ => exact ⟨_, rfl⟩

/-- The answer `o` to an access of `b` bits at `a` is the refusal of a foreign access: of another width, or outside the
window. -/
def RefusedAsForeign (p : Config.Params) (a b : Nat) (o : Host.Outcome State Fault Refusal) : Prop :=
  (b ≠ 8 ∧ o = .refused (.wideAccess b)) ∨
  (b = 8 ∧ ¬ (p.regBase ≤ a ∧ a < p.regBase + 16) ∧ o = .refused (.outsideWindow a))

theorem performInput_memRead_answers_or_refused (a b : Nat) (s : State) :
    (∃ t, performInput (.memRead a b) s = .next t) ∨ RefusedAsForeign s.params a b (performInput (.memRead a b) s) := by
  by_cases hb : b = 8
  · subst hb
    cases hw : windowOffset s.params a with
    | some off => exact .inl ⟨_, performInput_memRead_of_window hw⟩
    | none =>
      exact .inr (.inr ⟨rfl, not_in_window_of_windowOffset_eq_none hw, performInput_memRead_of_outside hw⟩)
  · exact .inr (.inl ⟨hb, performInput_memRead_of_wide hb a s⟩)

theorem performInput_memWrite_answers_or_refused (a b v : Nat) (s : State) :
    (∃ t, performInput (.memWrite a b v) s = .next t) ∨
    RefusedAsForeign s.params a b (performInput (.memWrite a b v) s) := by
  by_cases hb : b = 8
  · subst hb
    cases hw : windowOffset s.params a with
    | some off =>
      rw [performInput_memWrite_of_window hw]
      exact .inl (writeReg_answers off _ s)
    | none =>
      exact .inr (.inr ⟨rfl, not_in_window_of_windowOffset_eq_none hw, performInput_memWrite_of_outside hw v⟩)
  · exact .inr (.inl ⟨hb, performInput_memWrite_of_wide hb a v s⟩)

/-- Settles O7: `issue` always answers, the engine's step and a reset are functions of the state, and an access by address
is refused just where it is foreign. -/
theorem onlyForeignAccessesAreRefused : Obligations.OnlyForeignAccessesAreRefused := by
  refine ⟨exec_answers, fun s => ?_⟩
  cases hi : s.inputs with
  | nil => exact .inl ⟨_, step_of_no_inputs hi⟩
  | cons m rest =>
    rw [step_of_input hi]
    cases m with
    | engine | read | reset => exact .inl ⟨_, rfl⟩
    | write off v => exact .inl (writeReg_answers off v _)
    | wait =>
      simp only [performInput]
      split <;> exact .inl ⟨_, rfl⟩
    | memRead a b =>
      exact (performInput_memRead_answers_or_refused a b _).imp_right fun h => ⟨a, b, 0, .inl rfl, h⟩
    | memWrite a b v =>
      exact (performInput_memWrite_answers_or_refused a b v _).imp_right fun h => ⟨a, b, v, .inr rfl, h⟩

/-! ### The parameters (R53) -/

theorem exec_params {i : Instr} {s t : State} (h : exec i s = .next t) : t.params = s.params := by
  rcases exec_cases h with ⟨-, rfl⟩ | ⟨-, rfl⟩ | ⟨-, -, ht⟩
  · rfl
  · rfl
  · rw [ht]

theorem writeReg_params {off : Offset} {v : Byte} {s t : State} (h : writeReg off v s = .next t) :
    t.params = s.params := by
  rcases writeReg_cases h with ⟨-, rfl⟩ | ⟨-, i, he⟩ | ⟨-, rfl⟩ | ⟨-, ht, -⟩
  · rfl
  · exact exec_params he
  · rfl
  · rw [ht]

/-- Settles O21, by the cases of a step: none of them writes a parameter. -/
theorem parametersAreNeverWritten : Obligations.ParametersAreNeverWritten := by
  intro s t hstep
  rcases step_cases hstep with ⟨r, rfl⟩ | ⟨m, rest, -, ⟨rd, rfl⟩ | ⟨off, v, -, hw⟩ | ⟨-, rfl⟩⟩
  · exact engineStep_params s
  · rfl
  · exact writeReg_params (s := { s with inputs := rest }) hw
  · rfl

/-! ### Host accesses while a command runs (R42, R49, R50; 40_command_issue.md R65, R68) -/

/-- A register access of the host while a command runs changes nothing but `ERR.OVR`, which a write sets, and the values
read. -/
theorem performInput_hostAccess_of_busy {m : Input} {s : State} (hm : m.isHostAccess s.params = true)
    (hb : s.busy = true) : ∃ rd, performInput m s = .next { s with ovr := s.ovr || m.isWrite, reads := rd } := by
  have hread (off : Offset) :
      performInput (.read off) s = .next { s with ovr := s.ovr || false, reads := (hostRead off s).reads } := by
    rw [Bool.or_false]; rfl
  have hwrite (off : Offset) (v : Byte) : performInput (.write off v) s = .next { s with ovr := s.ovr || true } := by
    rw [Bool.or_true]; exact writeReg_of_busy off v hb
  cases m with
  | engine | wait | reset => cases hm
  | read off => exact ⟨_, hread off⟩
  | write off v => exact ⟨_, hwrite off v⟩
  | memRead a b =>
    simp only [Input.isHostAccess, Bool.and_eq_true, beq_iff_eq, Option.isSome_iff_exists] at hm
    obtain ⟨rfl, off, hw⟩ := hm
    exact ⟨_, (performInput_memRead_of_window hw).trans (hread off)⟩
  | memWrite a b v =>
    simp only [Input.isHostAccess, Bool.and_eq_true, beq_iff_eq, Option.isSome_iff_exists] at hm
    obtain ⟨rfl, off, hw⟩ := hm
    exact ⟨_, (performInput_memWrite_of_window hw v).trans (hwrite off _)⟩

/-- A command that still runs after steps of the engine was running before them. -/
theorem busy_of_iterate_engineStep_busy {s : State} {n : Nat} (h : (engineStep^[n] s).busy = true) : s.busy = true := by
  cases hs : s.seq with
  | none => rwa [iterate_engineStep_of_none hs] at h
  | some k => exact State.busy_of_some hs

/-- The schedule's run is the engine's run of as many steps, but for the host's side of the state. -/
theorem run_schedule_of_busy (l : List Input) (s : State) (hi : s.inputs = l)
    (hl : ∀ m ∈ l, m = .engine ∨ m.isHostAccess s.params = true)
    (hb : (engineStep^[l.count .engine] s).busy = true) :
    ∃ rd, Host.Core.run Sys2Proof.core l.length s = .next
      { engineStep^[l.count .engine] s with ovr := s.ovr || l.any Input.isWrite, reads := rd, inputs := [] } := by
  induction l generalizing s with
  | nil =>
    cases s
    cases hi
    exact ⟨_, by rw [List.any_nil, Bool.or_false]; rfl⟩
  | cons m rest ih =>
    obtain ⟨hm, hrest⟩ := List.forall_mem_cons.1 hl
    rcases hm with rfl | hm
    · have hstep : Sys2Proof.core.step s = .next { engineStep s with inputs := rest } := by
        rw [← engineStep_withInputs]; exact step_of_input hi
      rw [List.count_cons_self, Function.iterate_succ_apply] at hb ⊢
      rw [List.length_cons, run_succ_of_next hstep]
      obtain ⟨rd, hrun⟩ := ih { engineStep s with inputs := rest } rfl (by simpa using hrest)
        (by rw [iterate_engineStep_hostSide]; exact hb)
      refine ⟨rd, hrun.trans ?_⟩
      rw [iterate_engineStep_hostSide]
      simp [Input.isWrite]
    · have hne : m ≠ .engine := by rintro rfl; cases hm
      rw [List.count_cons_of_ne hne] at hb ⊢
      obtain ⟨rd, hmove⟩ := performInput_hostAccess_of_busy (s := { s with inputs := rest }) hm
        (busy_of_iterate_engineStep_busy (s := s) hb)
      have hstep : Sys2Proof.core.step s = _ := (step_of_input hi).trans hmove
      rw [List.length_cons, run_succ_of_next hstep]
      obtain ⟨rd', hrun⟩ := ih { s with inputs := rest, ovr := s.ovr || m.isWrite, reads := rd } rfl hrest
        (by rw [iterate_engineStep_hostSide]; exact hb)
      refine ⟨rd', hrun.trans ?_⟩
      rw [iterate_engineStep_hostSide]
      simp [Bool.or_assoc]

/-- Settles O23: the run of the schedule and the undisturbed run are both the engine's run of as many steps, but for the
host's side of the state, which the engine never reads. -/
theorem hostAccessesDoNotDisturbARunningCommand : Obligations.HostAccessesDoNotDisturbARunningCommand := by
  intro s q hm hq hb
  rw [run_of_no_inputs rfl, iterate_engineStep_hostSide] at hq
  cases hq
  obtain ⟨rd, hrun⟩ := run_schedule_of_busy s.inputs s rfl hm hb
  refine ⟨_, hrun, rfl, ?_⟩
  simp only [Bool.or_eq_true, List.any_eq_true]
end Sys2Proof.Machine
end

