-- ==== Sys2Proof/Proofs/Encoding.lean ====
section
/-! PROOFS. The statements of 30_encoding.md: decoder and encoder agree, which words are legal, and the bus state a
command requires. -/

namespace Sys2Proof

/-! ### The fields of a command word (R55) -/

@[simp] theorem wordOp_commandWord (op : BitVec 4) (m : Bool) : wordOp (commandWord op m) = op :=
  BitVec.extractLsb'_append_eq_left

@[simp] theorem wordMod31_commandWord (op : BitVec 4) (m : Bool) : wordMod31 (commandWord op m) = 0#3 :=
  (BitVec.extractLsb'_append_eq_of_add_le (by decide)).trans BitVec.extractLsb'_append_eq_left

@[simp] theorem wordMod0_commandWord (op : BitVec 4) (m : Bool) : wordMod0 (commandWord op m) = m := by
  unfold wordMod0 commandWord; grind

/-- The three fields are the whole word. -/
theorem append_fields (w : Byte) : wordOp w ++ (wordMod31 w ++ BitVec.ofBool (wordMod0 w)) = w := by
  unfold wordOp wordMod31 wordMod0; grind

/-- A word whose `MOD[3:1]` is zero is the word of its own `OP` and `MOD[0]`. -/
theorem commandWord_of_fields {w : Byte} (h : wordMod31 w = 0#3) : commandWord (wordOp w) (wordMod0 w) = w := by
  rw [commandWord, ← h, append_fields]

/-! ### An instruction's row of the opcode map (R58) -/

/-- `OP` of an instruction's command word. -/
def Instr.op : Instr → BitVec 4
  | .start      => 0x1
  | .stop       => 0x2
  | .wrbyte     => 0x3
  | .rdbyte _   => 0x4
  | .ackbit _   => 0x5
  | .connect _  => 0x8
  | .ctrlbyte _ => 0x9
  | .init       => 0xA
  | .setwin     => 0xB
  | .clear      => 0xC
  | .glyph      => 0xD

/-- `MOD[0]` of an instruction's command word: its modifier, or 0 where it has none. -/
def Instr.modifier : Instr → Bool
  | .rdbyte a   => a
  | .ackbit d   => d
  | .connect r  => r.bit
  | .ctrlbyte k => k.bit
  | _           => false

theorem encode_eq_commandWord (i : Instr) : encode i = commandWord i.op i.modifier := by
  cases i <;> rfl

@[simp] theorem Direction.bit_ofBit (m : Bool) : (Direction.ofBit m).bit = m := by cases m <;> rfl

@[simp] theorem StreamKind.bit_ofBit (m : Bool) : (StreamKind.ofBit m).bit = m := by cases m <;> rfl

/-! ### The decoder inverts the encoder (R55 to R58) -/

theorem plainCommand_eq_ok_iff {op : BitVec 4} {i j : Instr} {m : Bool} :
    plainCommand op i m = .ok j ↔ m = false ∧ i = j := by
  cases m <;> simp [plainCommand]

theorem decodeOp_op_modifier (i : Instr) : decodeOp i.op i.modifier = .ok i := by
  cases i with
  | connect r => cases r <;> rfl
  | ctrlbyte k => cases k <;> rfl
  | _ => rfl

/-- The opcode map gives an instruction to its own `OP` and modifier only. -/
theorem op_modifier_of_decodeOp {op : BitVec 4} {m : Bool} {i : Instr} (h : decodeOp op m = .ok i) :
    op = i.op ∧ m = i.modifier := by
  unfold decodeOp at h
  split at h
  case h_1 hop | h_2 hop | h_3 hop | h_8 hop | h_9 hop | h_10 hop | h_11 hop =>
    obtain ⟨rfl, rfl⟩ := plainCommand_eq_ok_iff.1 h
    exact ⟨BitVec.eq_of_toNat_eq hop, rfl⟩
  case h_4 hop | h_5 hop | h_6 hop | h_7 hop =>
    cases h
    exact ⟨BitVec.eq_of_toNat_eq hop, by simp [Instr.modifier]⟩
  case h_12 => cases h

/-- A word decodes by its `OP` and `MOD[0]`, and only with `MOD[3:1]` zero. -/
theorem decode_eq_ok_iff {w : Byte} {i : Instr} :
    decode w = .ok i ↔ wordMod31 w = 0#3 ∧ decodeOp (wordOp w) (wordMod0 w) = .ok i := by
  unfold decode
  split
  · next h => simp [h]
  · split <;> simp_all

theorem decode_encode (i : Instr) : decode (encode i) = .ok i := by
  simp [decode_eq_ok_iff, encode_eq_commandWord, decodeOp_op_modifier]

theorem eq_encode_of_decode {w : Byte} {i : Instr} (h : decode w = .ok i) : w = encode i := by
  obtain ⟨hmod, hop⟩ := decode_eq_ok_iff.1 h
  obtain ⟨ho, hm⟩ := op_modifier_of_decodeOp hop
  rw [encode_eq_commandWord, ← ho, ← hm, commandWord_of_fields hmod]

/-- Settles O2: the decoder reads back what the encoder writes, and the fields of a word that decodes are the
instruction's. -/
theorem decodeAndEncodeAgree : Obligations.DecodeAndEncodeAgree := by
  intro i w
  constructor
  · exact eq_encode_of_decode
  · rintro rfl
    exact decode_encode i

/-! ### Legality (R59) -/

theorem isOk_eq_true_iff {ε α : Type} {x : Except ε α} : x.isOk = true ↔ ∃ a, x = .ok a := by
  cases x <;> simp [Except.isOk, Except.toBool]

/-- An assigned `OP` selects a command, unless `MOD[0]` is 1 and the command has no modifier. -/
theorem isOk_decodeOp (op : BitVec 4) (m : Bool) :
    (decodeOp op m).isOk = (opAssigned op && !(opWithoutModifier op && m)) := by
  revert op m; decide

/-- The legal words are just those that decode. -/
theorem wordLegal_eq_true_iff (w : Byte) : wordLegal w = true ↔ ∃ i, decode w = .ok i := by
  simp only [decode_eq_ok_iff, exists_and_left, ← isOk_eq_true_iff, isOk_decodeOp, wordLegal, Bool.and_eq_true,
    beq_iff_eq]
  tauto

theorem toOption_decode_eq_none_iff (w : Byte) : (decode w).toOption = none ↔ wordLegal w = false := by
  rw [← Bool.not_eq_true, wordLegal_eq_true_iff]
  cases decode w <;> simp [Except.toOption]

/-! ### The fifteen legal words (R58) -/

/-- The legal command words in the order of the opcode map. -/
def legalWords : List Byte :=
  [0x10, 0x20, 0x30, 0x40, 0x41, 0x50, 0x51, 0x80, 0x81, 0x90, 0x91, 0xA0, 0xB0, 0xC0, 0xD0]

theorem encode_mem_legalWords (i : Instr) : encode i ∈ legalWords := by
  cases i with
  | rdbyte a => cases a <;> decide
  | ackbit d => cases d <;> decide
  | connect r => cases r <;> decide
  | ctrlbyte k => cases k <;> decide
  | _ => decide

theorem wordLegal_iff_mem_legalWords (w : Byte) : wordLegal w = true ↔ w ∈ legalWords := by
  constructor
  · intro h
    obtain ⟨i, hi⟩ := (wordLegal_eq_true_iff w).1 h
    rw [eq_encode_of_decode hi]
    exact encode_mem_legalWords i
  · have hall : ∀ w ∈ legalWords, wordLegal w = true := by decide
    exact hall w

/-- Settles O1: each tabled word is its instruction's encoding, and a legal word is one of them. -/
theorem legalWordsAreTheFifteenTabled : Obligations.LegalWordsAreTheFifteenTabled := by
  refine ⟨decode_encode .start, decode_encode .stop, decode_encode .wrbyte, decode_encode (.rdbyte false),
    decode_encode (.rdbyte true), decode_encode (.ackbit false), decode_encode (.ackbit true),
    decode_encode (.connect .write), decode_encode (.connect .read), decode_encode (.ctrlbyte .command),
    decode_encode (.ctrlbyte .data), decode_encode .init, decode_encode .setwin, decode_encode .clear,
    decode_encode .glyph, fun w hw => ?_⟩
  rw [toOption_decode_eq_none_iff, ← Bool.not_eq_true, wordLegal_iff_mem_legalWords]
  exact hw

/-! ### The illegal words (R59) -/

theorem opAssigned_eq_false_iff (op : BitVec 4) :
    opAssigned op = false ↔ op ∈ ([0x0, 0x6, 0x7, 0xE, 0xF] : List (BitVec 4)) := by
  revert op; decide

theorem opWithoutModifier_eq_true_iff (op : BitVec 4) :
    opWithoutModifier op = true ↔ op ∈ ([0x1, 0x2, 0x3, 0xA, 0xB, 0xC, 0xD] : List (BitVec 4)) := by
  revert op; decide

/-- The three ways in which a word is illegal. -/
theorem wordLegal_eq_false_iff (w : Byte) : wordLegal w = false ↔
    wordOp w ∈ ([0x0, 0x6, 0x7, 0xE, 0xF] : List (BitVec 4)) ∨ wordMod31 w ≠ 0#3 ∨
    (wordOp w ∈ ([0x1, 0x2, 0x3, 0xA, 0xB, 0xC, 0xD] : List (BitVec 4)) ∧ wordMod0 w = true) := by
  rw [← opAssigned_eq_false_iff, ← opWithoutModifier_eq_true_iff]
  simp only [wordLegal, Bool.and_eq_false_iff, Bool.not_eq_false', Bool.and_eq_true, beq_eq_false_iff_ne, or_assoc]

theorem isSome_decode_iff_mem_legalWords (w : Byte) : (decode w).toOption.isSome = true ↔ w ∈ legalWords := by
  rw [← wordLegal_iff_mem_legalWords, Option.isSome_iff_ne_none, ne_eq, toOption_decode_eq_none_iff,
    Bool.not_eq_false]

/-- Of the 256 words those that decode are the fifteen legal ones, each once. -/
theorem filter_range_decode_perm_legalWords :
    ((List.range 256).filter fun n => (decode (BitVec.ofNat 8 n)).toOption.isSome).Perm
      (legalWords.map BitVec.toNat) := by
  refine (List.perm_ext_iff_of_nodup (List.nodup_range.filter _) (by decide)).2 fun n => ?_
  rw [List.mem_filter, List.mem_range, isSome_decode_iff_mem_legalWords, List.mem_map]
  constructor
  · rintro ⟨hn, hw⟩
    exact ⟨_, hw, (BitVec.toNat_ofNat n 8).trans (Nat.mod_eq_of_lt hn)⟩
  · rintro ⟨w, hw, rfl⟩
    exact ⟨w.isLt, by simpa using hw⟩

/-- The words that do not decode are the rest of the 256. -/
theorem length_filter_range_isNone_decode :
    ((List.range 256).filter fun n => (decode (BitVec.ofNat 8 n)).toOption.isNone).length = 241 := by
  have hsplit := (List.range 256).length_eq_length_filter_add fun n => (decode (BitVec.ofNat 8 n)).toOption.isSome
  have hlegal : (legalWords.map BitVec.toNat).length = 15 := rfl
  rw [filter_range_decode_perm_legalWords.length_eq, hlegal, List.length_range] at hsplit
  simp only [Option.not_isSome] at hsplit
  omega

end Sys2Proof

namespace Sys2Proof.Machine

/-! ### The rejection of an illegal word (R59) -/

theorem writeReg_cmd_of_idle {s : State} (w : Byte) (hs : s.seq = none) : writeReg 0x0 w s = issueWord w s := by
  simp [writeReg, State.busy_of_none hs, writeIdle, Reg.ofOffset]

theorem issueWord_of_illegal {w : Byte} (s : State) (h : (decode w).toOption = none) :
    issueWord w s = .next (s.reject .illegal) := by
  unfold issueWord
  split
  · next hi => rw [hi] at h; cases h
  · rfl

/-- Settles O3: the three ways are those in which `wordLegal` fails, the legal words are those that decode, and all but
fifteen of the 256 words are left. -/
theorem illegalWordsAreRejectedWithoutEffect : Obligations.IllegalWordsAreRejectedWithoutEffect := by
  refine ⟨fun w hw s hs => ?_, fun w hw => ?_, length_filter_range_isNone_decode⟩
  · have hnone : (decode w).toOption = none := (toOption_decode_eq_none_iff w).2 ((wordLegal_eq_false_iff w).2 hw)
    exact ⟨hnone, (writeReg_cmd_of_idle w hs).trans (issueWord_of_illegal s hnone)⟩
  · rw [← wordLegal_eq_true_iff, ← Bool.not_eq_false, wordLegal_eq_false_iff]
    exact hw

/-! ### The bus state a command requires (R60) -/

/-- Settles O4: in the required bus state `issue` accepts, in the other it rejects with `STATE`. -/
theorem commandRequiresItsBusState : Obligations.CommandRequiresItsBusState := by
  intro i s hs
  constructor
  · intro hb
    exact ⟨_, exec_of_ready hs hb, rfl, rfl⟩
  · intro hb
    exact exec_of_wrong_state hs hb

end Sys2Proof.Machine
end

