-- ==== Sys2Proof/Proofs/CommandIssue.lean ====
section
/-! PROOFS. The statements of 40_command_issue.md: the host's reads and writes register by register, the checks of a write
to `CMD`, the end of a command, and the wait for SCL. -/

namespace Sys2Proof.Machine

/-! ### The checks of a write to `CMD` (R65 to R67; 60_exceptions.md R106) -/

/-- Settles O5: a busy block loses the write, an illegal word is rejected before the bus state is looked at, and a legal
word is its instruction, which `issue` rejects or accepts by the bus state. -/
theorem cmdWriteChecksBusyLegalityState : Obligations.CmdWriteChecksBusyLegalityState := by
  intro w s
  have hseq (hb : s.busy = false) : s.seq = none := (State.busy_eq_false_iff s).1 hb
  refine ⟨fun hb => writeReg_of_busy 0x0 w hb, fun hb e hw => ?_, fun hb i hw hbus => ?_, fun hb i hw hbus => ?_⟩
  · have hnone : (decode w).toOption = none := by rw [hw]; rfl
    exact (writeReg_cmd_of_idle w (hseq hb)).trans (issueWord_of_illegal s hnone)
  · exact (writeReg_cmd_of_decode (hseq hb) hw).trans (exec_of_wrong_state (hseq hb) hbus)
  · exact ⟨writeReg_cmd_of_decode (hseq hb) hw, _, exec_of_ready (hseq hb) hbus, rfl, rfl⟩

/-! ### The end of a command (R69; 60_exceptions.md R102) -/

/-- No step of the pseudocode ends its command: it goes on, or a read of SCL as 0 leaves it where it is. -/
theorem runMicro_busy {s : State} (m : Micro) (k : List Micro) (hb : s.busy = true) :
    (runMicro m k s).busy = true := by
  cases m with
  | waitScl =>
    simp only [runMicro, stepWaitScl]
    split
    · rfl
    · simpa [State.busy] using hb
  | outLoop => simp only [runMicro, stepOutLoop]; split <;> rfl
  | inLoop => simp only [runMicro, stepInLoop]; split <;> rfl
  | zeros n => cases n <;> rfl
  | abortIf b => cases b <;> rfl
  | _ => rfl

/-- The engine's step ends a command only when nothing of its pseudocode is left. -/
theorem seq_of_engineStep_ends {s : State} (hb : s.busy = true) (he : (engineStep s).busy = false) :
    s.seq = some [] := by
  cases hs : s.seq with
  | none => simp [State.busy_of_none hs] at hb
  | some l =>
    cases l with
    | nil => rfl
    | cons m k => simp [engineStep_of_cons hs, runMicro_busy m k hb] at he

/-- Where nothing of the pseudocode is left, the invariant has `ERR.CODE` at OK or NACK. -/
theorem State.Inv.code_at_end {s : State} (h : s.Inv) (hs : s.seq = some []) : s.code = .ok ∨ s.code = .nack := by
  have hd : disciplined s.lines [] = true := by simpa [State.inOrder, hs] using h.order
  simp only [disciplined, Bool.and_eq_true, Bool.or_eq_true, beq_iff_eq] at hd
  obtain ⟨-, hcode⟩ := hd
  exact hcode

/-- Settles O20, by the cases of a step: only the engine's step and a reset end a running command, and the engine's step
does so where nothing of the pseudocode is left. -/
theorem commandEndsWithOkOrNack : Obligations.CommandEndsWithOkOrNack := by
  intro s t hinv hstep hreset hb ht
  have hchanged : t.busy ≠ s.busy := by simp [hb, ht]
  rcases step_cases hstep with ⟨r, rfl⟩ | ⟨m, rest, hi, ⟨rd, rfl⟩ | ⟨off, v, -, hw⟩ | ⟨rfl, -⟩⟩
  · have hs : s.seq = some [] := seq_of_engineStep_ends hb ht
    rw [engineStep_of_nil hs]
    exact ⟨rfl, hinv.code_at_end hs⟩
  · exact (hchanged rfl).elim
  · rw [writeReg_of_busy (s := { s with inputs := rest }) off v hb] at hw
    cases hw
    exact (hchanged rfl).elim
  · simp [hi] at hreset

/-! ### The wait for SCL (R70; 41_bus_engine.md R73) -/

theorem State.lineScl_of_scripted {s : State} {e : Level} {es : List Level} (h : s.envScl = e :: es) :
    s.lineScl = (s.sclOut && e) := by simp [State.lineScl, State.envSclDraw, h]

theorem State.afterSclDraw_of_scripted {s : State} {e : Level} {es : List Level} (h : s.envScl = e :: es) :
    s.afterSclDraw = { s with envScl := es } := by simp [State.afterSclDraw, h]

/-- A read of SCL as 0 uses up the environment's level and nothing else. -/
theorem stepWaitScl_of_held_low {s : State} {es : List Level} (k : List Micro) (h : s.envScl = false :: es) :
    stepWaitScl k s = { s with envScl := es } := by
  simp [stepWaitScl, State.lineScl_of_scripted h, State.afterSclDraw_of_scripted h]

/-- A read of SCL as 1 completes the wait. -/
theorem stepWaitScl_of_released {s : State} {es : List Level} (k : List Micro) (hout : s.sclOut = true)
    (h : s.envScl = true :: es) :
    stepWaitScl k s = .goOn k { s with envScl := es, trace := .wait :: s.trace } := by
  simp [stepWaitScl, State.lineScl_of_scripted h, State.afterSclDraw_of_scripted h, hout, State.emit]

/-- A waiting command stays where it is for as many steps as the environment holds SCL low. -/
theorem iterate_engineStep_of_held_low {s : State} {k : List Micro} {n : Nat} {rest : List Level}
    (hseq : s.seq = some (.waitScl :: k)) (henv : s.envScl = List.replicate n false ++ rest) :
    engineStep^[n] s = { s with envScl := rest } := by
  induction n generalizing s with
  | zero =>
    obtain rfl : s.envScl = rest := henv
    rfl
  | succ n ih =>
    have hlow : engineStep s = { s with envScl := List.replicate n false ++ rest } :=
      (engineStep_of_cons hseq).trans (stepWaitScl_of_held_low k henv)
    rw [Function.iterate_succ_apply, hlow]
    exact ih hseq rfl

/-- Settles O26: with no move of the host to come the run is the engine's, `n` reads of 0 and then one of 1. -/
theorem commandBlocksWhileSclIsHeldLow : Obligations.CommandBlocksWhileSclIsHeldLow := by
  intro s k n rest hseq hin henv
  have hblocked : engineStep^[n] s = { s with envScl := rest } := iterate_engineStep_of_held_low hseq henv
  constructor
  · rw [run_of_no_inputs hin, hblocked]
  · rintro hout es rfl
    have hgo : engineStep { s with envScl := true :: es } =
        .goOn k { s with envScl := es, trace := .wait :: s.trace } :=
      (engineStep_of_cons (s := { s with envScl := true :: es }) hseq).trans (stepWaitScl_of_released k hout rfl)
    rw [run_of_no_inputs hin, Function.iterate_succ_apply', hblocked, hgo]
    rfl

/-! ### The host's reads (R63) -/

theorem State.held_eq_beq (s : State) : s.held = (s.bus == .held) := by
  unfold State.held; cases s.bus <;> rfl

/-- The bits of `STATUS`, one after the other. -/
theorem statusByte_eq_append (ack held busy : Bool) :
    statusByte ack held busy = 0#5 ++ BitVec.ofBool ack ++ BitVec.ofBool held ++ BitVec.ofBool busy := by
  revert ack held busy; decide

/-- The fields of `ERR`, one after the other. -/
theorem errByte_eq_append (ovr : Bool) (code : ErrCode) :
    errByte ovr code = BitVec.ofBool ovr ++ 0#4 ++ code.bits := by
  revert ovr; cases code <;> decide

/-- No register shows the host's moves. -/
theorem State.readReg_withInputs (s : State) (i : List Input) (off : Offset) :
    ({ s with inputs := i } : State).readReg off = s.readReg off := rfl

theorem step_of_read {s : State} {off : Offset} {rest : List Input} (hi : s.inputs = .read off :: rest) :
    step s = .next { s with inputs := rest, reads := ⟨off, s.readReg off⟩ :: s.reads } := by
  rw [step_of_input hi, ← State.readReg_withInputs s rest off]; rfl

/-- Settles O8: the registers stand in the table's order, and `STATUS` and `ERR` are their fields put together. -/
theorem readRegReturnsTheTabledValue : Obligations.ReadRegReturnsTheTabledValue := by
  intro s
  have hstatus : s.readReg 0x2 =
      0#5 ++ BitVec.ofBool s.ack ++ BitVec.ofBool (s.bus == .held) ++ BitVec.ofBool s.seq.isSome := by
    rw [← State.held_eq_beq]; exact statusByte_eq_append s.ack s.held s.busy
  exact ⟨rfl, rfl, hstatus, errByte_eq_append s.ovr s.code, rfl, rfl, rfl, rfl, rfl, rfl, rfl, rfl, rfl, rfl, rfl, rfl,
    fun off rest hi => step_of_read hi⟩

/-! ### The host's writes (R64, R65) -/

theorem writeReg_of_idle {s : State} (off : Offset) (v : Byte) (h : s.busy = false) :
    writeReg off v s = writeIdle off v s := by simp [writeReg, h]

theorem ovrAfterWrite_eq_ite (ovr : Bool) (v : Byte) :
    ovrAfterWrite ovr v = if v.getLsbD 7 = true then false else ovr := by
  unfold ovrAfterWrite; cases v.getLsbD 7 <;> simp

/-- Settles O9: each offset is its row of the table. -/
theorem idleWriteHasTheTabledEffect : Obligations.IdleWriteHasTheTabledEffect := by
  intro s v h
  simp only [writeReg_of_idle _ v h, ← ovrAfterWrite_eq_ite]
  exact ⟨rfl, rfl, rfl, rfl, rfl, rfl, rfl, rfl, rfl, rfl, rfl, rfl, rfl, rfl, rfl, rfl⟩

/-- Settles O10: the move is the write, which a busy block loses. -/
theorem busyWriteIsLostAndSetsOverrun : Obligations.BusyWriteIsLostAndSetsOverrun := by
  intro s off v rest hb hi
  rw [step_of_input hi]
  exact writeReg_of_busy off v hb

end Sys2Proof.Machine
end

