-- ==== Sys2Proof/Proofs/BusEngine.lean ====
section
/-! PROOFS. The statements of 41_bus_engine.md: when SDA may move, a bit slot, and the Bus Engine's five commands. -/

namespace Sys2Proof.Machine

/-! ### When SDA moves (R80) -/

/-- Of the steps of the pseudocode only `SetSDA` writes the SDA driver. -/
theorem runMicro_sdaOut (m : Micro) (k : List Micro) (s : State) :
    (runMicro m k s).sdaOut = s.sdaOut ∨ ∃ v, m = .setSda v ∧ (runMicro m k s).sdaOut = v := by
  cases m with
  | setSda v => exact .inr ⟨v, rfl, rfl⟩
  | waitScl => left; simp only [runMicro, stepWaitScl]; split <;> simp
  | sample use => left; simp [runMicro, stepSample]
  | outLoop => left; simp only [runMicro, stepOutLoop]; split <;> rfl
  | inLoop => left; simp only [runMicro, stepInLoop]; split <;> rfl
  | zeros n => left; cases n <;> rfl
  | abortIf b => left; cases b <;> rfl
  | _ => exact .inl rfl

/-- A step of the engine that moves SDA is a `SetSDA` at the front of the running command. -/
theorem engineStep_moves_sda {s : State} (h : (engineStep s).sdaOut ≠ s.sdaOut) :
    ∃ v k, s.seq = some (.setSda v :: k) ∧ (engineStep s).sdaOut = v := by
  cases hs : s.seq with
  | none => exact absurd (congrArg State.sdaOut (engineStep_of_none hs)) h
  | some l =>
    cases l with
    | nil => exact absurd (congrArg State.sdaOut (engineStep_of_nil hs)) h
    | cons m k =>
      rw [engineStep_of_cons hs] at h ⊢
      obtain ⟨v, rfl, hv⟩ := (runMicro_sdaOut m k s).resolve_left h
      exact ⟨v, k, rfl, hv⟩

theorem exec_sdaOut {i : Instr} {s t : State} (h : exec i s = .next t) : t.sdaOut = s.sdaOut := by
  rcases exec_cases h with ⟨-, rfl⟩ | ⟨-, rfl⟩ | ⟨-, -, ht⟩
  · rfl
  · rfl
  · rw [ht]

/-- No write of the host moves SDA by itself. -/
theorem writeReg_sdaOut {off : Offset} {v : Byte} {s t : State} (h : writeReg off v s = .next t) :
    t.sdaOut = s.sdaOut := by
  rcases writeReg_cases h with ⟨-, rfl⟩ | ⟨-, i, he⟩ | ⟨-, rfl⟩ | ⟨-, ht, -⟩
  · rfl
  · exact exec_sdaOut he
  · rfl
  · rw [ht]

/-- With SCL released SDA may only fall out of IDLE, or rise out of HELD. -/
theorem Lines.mayDriveSda_of_released {a : Lines} (h : a.scl = true) (v : Level) :
    a.mayDriveSda v = true ↔ (a.bus = .idle ∧ v = false) ∨ (a.bus = .held ∧ v = true) := by
  unfold Lines.mayDriveSda
  cases a.bus <;> simp [h]

/-- The invariant lets a `SetSDA` come to the front only where the engine may drive SDA so. -/
theorem State.Inv.mayDriveSda {s : State} {v : Level} {k : List Micro} (h : s.Inv)
    (hs : s.seq = some (.setSda v :: k)) : s.lines.mayDriveSda v = true := by
  have hd : disciplined s.lines (.setSda v :: k) = true := by simpa [State.inOrder, hs] using h.order
  exact (Bool.and_eq_true_iff.1 hd).1

/-- Settles O19, by the cases of a step: only the engine's step moves SDA, by a `SetSDA` that the invariant allows. -/
theorem sdaMovesUnderHighSclOnlyAsCondition : Obligations.SdaMovesUnderHighSclOnlyAsCondition := by
  intro s t hinv hstep hreset hscl hmoved
  rcases step_cases hstep with ⟨r, rfl⟩ | ⟨m, rest, hi, ⟨rd, rfl⟩ | ⟨off, v, -, hw⟩ | ⟨rfl, -⟩⟩
  · obtain ⟨v, k, hs, hv⟩ := engineStep_moves_sda hmoved
    have hmay := (Lines.mayDriveSda_of_released (a := s.lines) hscl v).1 (hinv.mayDriveSda hs)
    rw [← hv] at hmay
    exact hmay
  · exact absurd rfl hmoved
  · exact absurd (writeReg_sdaOut hw) hmoved
  · simp [hi] at hreset

/-! ### A bit slot (R74) -/

theorem State.goOn_of_seq {s : State} {k : List Micro} (h : s.seq = some k) : s.goOn k = s := by
  rw [State.goOn, ← h]

/-- Settles O27: the slot's steps, as a run of the machine with no move of the host to come. -/
theorem clockBitMakesItsFiveEvents : Obligations.ClockBitMakesItsFiveEvents := by
  intro s v e es use k hseq hin henv hrel
  have hslot := steps_clockBit s v e es use k henv hrel
  rw [State.goOn_of_seq hseq] at hslot
  refine ⟨_, hslot.runs hin, ?_⟩
  rw [State.slot, henv]
  rfl

/-! ### From acceptance to the end of a command (R66, R69) -/

/-- A command accepted in the bus state it requires gets where its pseudocode leads. -/
theorem exec_runs_of_steps {i : Instr} {s f : State} (hs : s.seq = none) (hb : s.bus = requiredBus i)
    (hin : s.inputs = []) (h : Steps (s.fresh.goOn (commandScript i s ++ [.setCode .ok])) f) :
    ∃ t, exec i s = .next t ∧ Runs t f :=
  ⟨_, exec_of_ready hs hb, h.runs hin⟩

/-- A command whose own pseudocode leads to `u`, whatever stands after it, ends there with OK. -/
theorem exec_runs_to_normalEnd {i : Instr} {s u : State} (hs : s.seq = none) (hb : s.bus = requiredBus i)
    (hin : s.inputs = []) (h : ∀ k, Steps (s.fresh.goOn (commandScript i s ++ k)) (u.goOn k)) :
    ∃ t, exec i s = .next t ∧ Runs t { u with seq := none, code := .ok } :=
  exec_runs_of_steps hs hb hin ((h [.setCode .ok]).trans (steps_normalEnd u))

/-! ### START (R81) -/

/-- Settles O30: START is the start condition and the normal end. -/
theorem startOpensATransaction : Obligations.StartOpensATransaction := by
  refine ⟨decode_encode .start, fun s hready hrel => ?_, fun s hs hheld => ?_⟩
  · obtain ⟨hs, hidle, hscl, hin⟩ := hready
    obtain ⟨t, ht, hrun⟩ := exec_runs_to_normalEnd (i := .start) hs hidle hin
      fun k => steps_startCond s.fresh k hscl hrel
    refine ⟨t, _, ht, hrun, ?_⟩
    simp [State.started, State.fresh, afterReleases_succ, hs]
  · exact exec_of_wrong_state hs (by simp [hheld, requiredBus])

/-- Settles O43: the wait is the first step of START's pseudocode. -/
theorem startWaitsBeforeTouchingSda : Obligations.StartWaitsBeforeTouchingSda := by
  intro s n rest hready henv
  obtain ⟨hs, hidle, -, hin⟩ := hready
  have hblocked : engineStep^[n] (s.accept startCond) = { s.accept startCond with envScl := rest } :=
    iterate_engineStep_of_held_low (s := s.accept startCond) rfl henv
  refine ⟨s.accept startCond, exec_of_ready hs hidle, rfl, rfl, rfl, ?_⟩
  rw [run_of_no_inputs (s := s.accept startCond) hin, hblocked]

/-! ### STOP (R82) -/

/-- Settles O31: STOP is the stop condition and the normal end. -/
theorem stopReleasesTheBus : Obligations.StopReleasesTheBus := by
  refine ⟨decode_encode .stop, fun s hready hrel => ?_, fun s hs hidle => ?_⟩
  · obtain ⟨hs, hheld, -, hin⟩ := hready
    obtain ⟨t, ht, hrun⟩ := exec_runs_to_normalEnd (i := .stop) hs hheld hin fun k => steps_stopCond s.fresh k hrel
    refine ⟨t, _, ht, hrun, ?_⟩
    simp [State.stopped, State.fresh, afterReleases_succ, hs]
  · exact exec_of_wrong_state hs (by simp [hidle, requiredBus])

/-! ### WRBYTE (R83) -/

/-- Settles O32: WRBYTE is `Wr(DATA)`, which counts an acknowledged byte before the normal end, and aborts at a NACK. -/
theorem wrbyteSendsData : Obligations.WrbyteSendsData := by
  refine ⟨decode_encode .wrbyte, fun s hready hack hrel => ?_, fun s hready hnack hrel => ?_, fun s hs hidle => ?_⟩
  · obtain ⟨hs, hheld, hscl, hin⟩ := hready
    obtain ⟨t, ht, hrun⟩ := exec_runs_to_normalEnd (i := .wrbyte) hs hheld hin
      fun k => steps_wr_acked s.fresh s.data k hack.slots hrel hack
    have hlevel : s.envSda[8]? = some false := hack
    refine ⟨t, _, ht, hrun, ?_⟩
    simp [State.sent, State.fresh, hlevel, ackOf, hs, hscl]
  · obtain ⟨hs, hheld, hscl, hin⟩ := hready
    obtain ⟨t, ht, hrun⟩ := exec_runs_of_steps (i := .wrbyte) hs hheld hin
      (steps_wr_nacked s.fresh s.data _ hnack.slots hrel hnack)
    have hlevel : s.envSda[8]? = some true := hnack
    refine ⟨t, _, ht, hrun, ?_⟩
    simp [State.sent, State.fresh, hlevel, ackOf, hs, hscl]
  · exact exec_of_wrong_state hs (by simp [hidle, requiredBus])

/-! ### RDBYTE (R84) -/

/-- The state after RDBYTE's nine slots and its writes, before the normal end. -/
def State.received (a : Level) (s : State) : State :=
  { s with
    data := shiftedIn s.sr (s.envSda.take 8), ack := ackOf (a && s.envSda.getD 8 true), sdaOut := a, sclOut := false
    sr := shiftedIn s.sr (s.envSda.take 8), bitcnt := 0, envScl := afterReleases 9 s.envScl, envSda := s.envSda.drop 9
    trace := ((s.envSda.take 8).flatMap (slotEvents true) ++ slotEvents a (s.envSda.getD 8 true)).reverse ++ s.trace }

/-- Nine scripted levels of SDA are those of eight data slots and of an acknowledge slot. -/
theorem State.slots.envSda_eq {s : State} (h : s.slots 9) :
    s.envSda = s.envSda.take 8 ++ s.envSda.getD 8 true :: s.envSda.drop 9 := by
  have h8 : 8 < s.envSda.length := h
  simp [List.getD_eq_getElem?_getD, h8]

theorem State.slots.length_take {s : State} (h : s.slots 9) : (s.envSda.take 8).length = 8 :=
  List.length_take_of_le (Nat.le_of_succ_le h)

theorem steps_rdbyte (s : State) (a : Level) (k : List Micro) (hd : s.slots 9) (hc : s.releases 9) :
    Steps (s.goOn (shiftInByte ++ ackSlot a .ackOfReceived ++ [.storeShift] ++ k)) ((s.received a).goOn k) := by
  have hrel : 1 ≤ (afterReleases 8 s.envScl).count true := by
    have hc : 9 ≤ s.envScl.count true := hc
    rw [count_afterReleases]; omega
  rw [List.append_assoc, List.append_assoc, State.received, List.reverse_append, List.append_assoc]
  refine Steps.trans (steps_shiftIn s _ _ _ hd.length_take hd.envSda_eq (hc.mono (by omega))) ?_
  refine Steps.trans (steps_ackSlot _ a _ _ .ackOfReceived ([.storeShift] ++ k) rfl hrel) ?_
  exact Steps.head rfl (Steps.head rfl (Steps.head rfl (Steps.refl _)))

/-- Settles O33: RDBYTE is `ShiftIn`, the acknowledge slot at `a` and the store to `DATA`, which nothing aborts. -/
theorem rdbyteReceivesIntoData : Obligations.RdbyteReceivesIntoData := by
  refine ⟨decode_encode (.rdbyte false), decode_encode (.rdbyte true), fun s a hready hslots hrel => ?_,
    fun s a hs hidle => ?_⟩
  · obtain ⟨hs, hheld, hscl, hin⟩ := hready
    obtain ⟨t, ht, hrun⟩ := exec_runs_to_normalEnd (i := .rdbyte a) hs hheld hin
      fun k => steps_rdbyte s.fresh a k hslots hrel
    refine ⟨t, _, ht, hrun, fun i hi => ?_, ?_⟩
    · have hbit : (s.envSda.take 8).getD i true = s.envSda.getD i true := by
        simp [List.getD_eq_getElem?_getD, hi]
      exact (shiftedIn_getMsbD s.sr _ hslots.length_take i hi).trans hbit
    · simp [State.received, State.fresh, ackOf, hs, hscl]
  · exact exec_of_wrong_state hs (by simp [hidle, requiredBus])

/-! ### ACKBIT (R85) -/

theorem steps_ackbit (s : State) (d e : Level) (es : List Level) (k : List Micro) (hd : s.envSda = e :: es)
    (hc : s.releases 1) :
    Steps (s.goOn (ackSlot d .ackToData ++ k))
      (State.goOn k
        { s with
          data := bitByte (d && e), ack := ackOf (d && e), bitcnt := 0, sdaOut := d, sclOut := false
          envScl := afterReleases 1 s.envScl, envSda := es, trace := (slotEvents d e).reverse ++ s.trace }) :=
  (steps_ackSlot s d e es .ackToData k hd hc).trans
    (Steps.head rfl (Steps.head rfl (Steps.head rfl (Steps.refl _))))

theorem bitByte_eq_ite (b : Level) : bitByte b = if b = true then 0x01 else 0x00 := by cases b <;> rfl

/-- Settles O34: ACKBIT is one slot, whose bit goes to `STATUS.ACK` and `DATA`, and the normal end. -/
theorem ackbitRecordsTheSlot : Obligations.AckbitRecordsTheSlot := by
  refine ⟨decode_encode (.ackbit false), decode_encode (.ackbit true), fun s d e es hready henv hrel => ?_,
    fun s d hs hidle => ?_⟩
  · obtain ⟨hs, hheld, hscl, hin⟩ := hready
    obtain ⟨t, ht, hrun⟩ := exec_runs_to_normalEnd (i := .ackbit d) hs hheld hin
      fun k => steps_ackbit s.fresh d e es k henv hrel
    refine ⟨t, _, ht, hrun, ?_⟩
    simp [State.fresh, ackOf, bitByte_eq_ite, hs, hscl]
  · exact exec_of_wrong_state hs (by simp [hidle, requiredBus])

end Sys2Proof.Machine
end

