-- ==== Sys2Proof/Proofs/DisplayController.lean ====
section
/-! PROOFS. The statements of 42_display_controller.md: the six commands of the Display Controller, each a piece of
pseudocode that `Sends` the bytes of its transactions, and `Advance()`. -/

namespace Sys2Proof.Machine

/-! ### Commands of one transaction (R90) -/

/-- A command that requires IDLE, issued at rest there, gets where the run of its pseudocode leads. -/
theorem exec_runs_of_readyIdle {i : Instr} {s f : State} (hi : requiredBus i = .idle) (hready : s.readyIdle)
    (hrun : Runs (s.fresh.goOn (commandScript i s ++ [.setCode .ok])) f) : ∃ t, exec i s = .next t ∧ Runs t f := by
  obtain ⟨hs, hidle, -, -⟩ := hready
  exact ⟨_, exec_of_ready hs (hidle.trans hi.symm), hrun⟩

/-- A command whose pseudocode is one transaction succeeds where all its bytes are acknowledged. -/
theorem exec_succeeds {i : Instr} {s : State} {p : List Micro} {bs : List Byte} (hi : requiredBus i = .idle)
    (hscript : commandScript i s = startCond ++ (p ++ stopCond)) (hp : Sends p bs) (hne : bs ≠ []) (hready : s.readyIdle)
    (hack : ∀ j < bs.length, s.byteAcked j) (hrel : s.releases (9 * bs.length + 2)) :
    ∃ t f, exec i s = .next t ∧ Runs t f ∧ f = s.succeeded [bs] bs.length f := by
  obtain ⟨f, hrun, hf⟩ := hp.succeeds hne s hready hack hrel
  obtain ⟨t, ht, hrun⟩ := exec_runs_of_readyIdle (f := f) hi hready
    (by rw [hscript]; simpa only [List.append_assoc] using hrun)
  exact ⟨t, f, ht, hrun, hf⟩

/-- A NACK in a command's first transaction, whatever is to follow. -/
theorem exec_aborts {i : Instr} {s : State} {p k : List Micro} {bs : List Byte} (ts : List (List Byte)) {j : Nat}
    (hi : requiredBus i = .idle) (hscript : commandScript i s = startCond ++ (p ++ k)) (hp : Sends p bs)
    (hready : s.readyIdle) (hj : j < bs.length) (hack : ∀ i < j, s.byteAcked i) (hnack : s.byteNacked j)
    (hrel : s.releases (9 * (j + 1) + 1)) :
    ∃ t f, exec i s = .next t ∧ Runs t f ∧ f = s.abortedAt (bs :: ts) j f := by
  obtain ⟨f, hrun, hf⟩ := hp.aborts ts (k ++ [Micro.setCode .ok]) s j hready hj hack hnack hrel
  obtain ⟨t, ht, hrun⟩ := exec_runs_of_readyIdle (f := f) hi hready
    (by rw [hscript]; simpa only [List.append_assoc] using hrun)
  exact ⟨t, f, ht, hrun, hf⟩

/-! ### Commands of two transactions -/

/-- A command whose pseudocode is two transactions and then the cursor writes `k` succeeds where all its bytes are
acknowledged; `k` starts from the cursor of acceptance. -/
theorem exec_succeeds_two {i : Instr} {s : State} {p q k : List Micro} {as bs : List Byte} {cur : Row × Col}
    (hi : requiredBus i = .idle)
    (hscript : commandScript i s = startCond ++ (p ++ (stopCond ++ (startCond ++ (q ++ (stopCond ++ k))))))
    (hp : Sends p as) (hq : Sends q bs) (hne : bs ≠ [])
    (hcur : ∀ (u : State) (k' : List Micro), u.cursor = s.cursor →
      Steps (u.goOn (k ++ k')) (State.goOn k' { u with curRow := cur.1, curCol := cur.2 }))
    (hready : s.readyIdle) (hack : ∀ j < as.length + bs.length, s.byteAcked j)
    (hrel : s.releases (9 * (as.length + bs.length) + 4)) :
    ∃ t f, exec i s = .next t ∧ Runs t f ∧
      f = { s.succeeded [as, bs] (as.length + bs.length) f with curRow := cur.1, curCol := cur.2 } := by
  obtain ⟨u, hsent, hkept, hu⟩ := hp.succeeds_two hq hne (k ++ [Micro.setCode .ok]) s hready hack hrel
  have hend := (hsent.trans (hcur u [.setCode .ok] hkept)).trans (steps_normalEnd _)
  have ⟨_, _, _, hin⟩ := hready
  obtain ⟨t, ht, hrun⟩ := exec_runs_of_readyIdle hi hready
    (by rw [hscript]; simpa only [List.append_assoc] using hend.runs hin)
  exact ⟨t, _, ht, hrun, congrArg (fun x : State => { x with curRow := cur.1, curCol := cur.2 }) hu⟩

/-- A NACK in either transaction of such a command: in the second two conditions more have waited for SCL. -/
theorem exec_aborts_two {i : Instr} {s : State} {p q k : List Micro} {as bs : List Byte} {j : Nat}
    (hi : requiredBus i = .idle)
    (hscript : commandScript i s = startCond ++ (p ++ (stopCond ++ (startCond ++ (q ++ k)))))
    (hp : Sends p as) (hq : Sends q bs) (hready : s.readyIdle) (hj : j < as.length + bs.length)
    (hack : ∀ i < j, s.byteAcked i) (hnack : s.byteNacked j)
    (hrel : s.releases (9 * (j + 1) + if j < as.length then 1 else 3)) :
    ∃ t f, exec i s = .next t ∧ Runs t f ∧ f = s.abortedAt [as, bs] j f := by
  by_cases hfirst : j < as.length
  · rw [if_pos hfirst] at hrel
    exact exec_aborts [bs] hi hscript hp hready hfirst hack hnack hrel
  · rw [if_neg hfirst] at hrel
    obtain ⟨f, hrun, hf⟩ :=
      hp.aborts_second hq (k ++ [Micro.setCode .ok]) s j hready (Nat.le_of_not_lt hfirst) hj hack hnack hrel
    obtain ⟨t, ht, hrun⟩ := exec_runs_of_readyIdle (f := f) hi hready
      (by rw [hscript]; simpa only [List.append_assoc] using hrun)
    exact ⟨t, f, ht, hrun, hf⟩

/-! ### Rejection in HELD (30_encoding.md R60) -/

/-- A command that requires IDLE is rejected in HELD. -/
theorem exec_of_held {i : Instr} {s : State} (hi : requiredBus i = .idle) (hs : s.seq = none) (hheld : s.bus = .held) :
    exec i s = .next { s with code := .state, xcnt := 0 } :=
  exec_of_wrong_state hs (by simp [hheld, hi])

/-! ### CONNECT (R91) -/

theorem addressByte_deviceAddress (data : Byte) (r : Direction) :
    addressByte (deviceAddress data) r = data.extractLsb' 0 7 ++ BitVec.ofBool r.bit := by
  rw [addressByte, deviceAddress, BitVec.setWidth_eq_extractLsb' (by decide)]

/-- The start condition and the address byte, acknowledged (R87). -/
theorem steps_conn_acked (s : State) (a7 : Addr7) (rw : Direction) (k : List Micro) (hscl : s.sclOut = true)
    (hack : s.byteAcked 0) (hrel : s.releases 10) :
    Steps (s.goOn (conn a7 rw ++ k))
      (State.goOn k { s.started.sent (addressByte a7 rw) with xcnt := s.xcnt + 1 }) :=
  (steps_startCond s _ hscl (hrel.mono (by omega))).trans
    (steps_wr_acked s.started (addressByte a7 rw) k hack.slots (releases_started hrel) hack)

/-- Settles O35: CONNECT is `Conn` and the normal end, or a transaction cut short at its first byte. -/
theorem connectSendsTheAddress : Obligations.ConnectSendsTheAddress := by
  refine ⟨decode_encode (.connect .write), decode_encode (.connect .read), fun s r hready hack hrel => ?_,
    fun s r hready hnack hrel => ?_, fun s r hs hheld => exec_of_held rfl hs hheld⟩
  · obtain ⟨hs, hidle, hscl, hin⟩ := hready
    obtain ⟨t, ht, hrun⟩ := exec_runs_to_normalEnd (i := .connect r) hs hidle hin
      fun k => steps_conn_acked s.fresh (deviceAddress s.data) r k hscl hack hrel
    have hlevel : s.envSda[8]? = some false := hack
    refine ⟨t, _, ht, hrun, ?_⟩
    cases r <;>
      simp [State.sent, State.started, State.fresh, hlevel, ackOf, hs, addressByte_deviceAddress, Direction.bit,
        afterReleases_succ]
  · have haborts := exec_aborts (i := .connect r) (k := []) [] rfl rfl (sends_wr (addressByte (deviceAddress s.data) r))
      hready (j := 0) (by simp) (by simp) hnack hrel
    rw [addressByte_deviceAddress] at haborts
    cases r <;> exact haborts

/-! ### CTRLBYTE (R92) -/

/-- Settles O36: CTRLBYTE is `Wr` of the control byte, which counts an acknowledged byte before the normal end, and aborts
at a NACK. -/
theorem ctrlbyteSendsTheControlByte : Obligations.CtrlbyteSendsTheControlByte := by
  refine ⟨decode_encode (.ctrlbyte .command), decode_encode (.ctrlbyte .data), fun s k hready hack hrel => ?_,
    fun s k hready hnack hrel => ?_, fun s k hs hidle => exec_of_wrong_state hs (by simp [hidle, requiredBus])⟩
  · obtain ⟨hs, hheld, hscl, hin⟩ := hready
    obtain ⟨t, ht, hrun⟩ := exec_runs_to_normalEnd (i := .ctrlbyte k) hs hheld hin
      fun rest => steps_wr_acked s.fresh (controlByte s.params k) rest hack.slots hrel hack
    have hlevel : s.envSda[8]? = some false := hack
    refine ⟨t, _, ht, hrun, ?_⟩
    cases k <;> simp [State.sent, State.fresh, controlByte, hlevel, ackOf, hs, hscl]
  · obtain ⟨hs, hheld, hscl, hin⟩ := hready
    obtain ⟨t, ht, hrun⟩ := exec_runs_of_steps (i := .ctrlbyte k) hs hheld hin
      (steps_wr_nacked s.fresh (controlByte s.params k) _ hnack.slots hrel hnack)
    have hlevel : s.envSda[8]? = some true := hnack
    refine ⟨t, _, ht, hrun, ?_⟩
    cases k <;> simp [State.sent, State.fresh, controlByte, hlevel, ackOf, hs, hscl]

/-! ### INIT (R93) -/

/-- The bytes INIT sends: the address byte, the control byte and the script. -/
def initBytes (p : Config.Params) : List Byte :=
  addressByte p.displayAddr .write :: p.ctrlCmd :: scriptBytes p.initScript

theorem commandScript_init (s : State) :
    commandScript .init s = startCond ++ ((initBytes s.params).map .wr ++ stopCond) := by
  simp [commandScript, conn, initBytes]

/-- Settles O37: INIT is one transaction of `Wr` steps. -/
theorem initSendsTheScript : Obligations.InitSendsTheScript := by
  refine ⟨decode_encode .init, fun s hready hack hrel => ?_, fun s j hready hj hack hnack hrel => ?_,
    fun s hs hheld => exec_of_held rfl hs hheld⟩
  · rw [show 2 + (scriptBytes s.params.initScript).length = (initBytes s.params).length from Nat.add_comm ..]
    exact exec_succeeds rfl (commandScript_init s) (sends_wrs _) (List.cons_ne_nil _ _) hready hack hrel
  · exact exec_aborts [] rfl (commandScript_init s) (sends_wrs _) hready hj hack hnack hrel

/-! ### SETWIN (R88, R95) -/

/-- `Window(r, c)` is one transaction of its eight bytes. -/
theorem window_eq (p : Config.Params) (r : Row) (c : Col) :
    window p r c = startCond ++ ((windowBytes p r c).map .wr ++ stopCond) := rfl

/-- Settles O38: SETWIN is the window's transaction. -/
theorem setwinSendsTheWindow : Obligations.SetwinSendsTheWindow := by
  refine ⟨decode_encode .setwin, fun s hready hack hrel => ?_, fun s j hready hj hack hnack hrel => ?_,
    fun s hs hheld => exec_of_held rfl hs hheld⟩
  · exact exec_succeeds rfl (window_eq s.params s.wrow s.wcol) (sends_wrs _) (List.cons_ne_nil _ _) hready hack hrel
  · exact exec_aborts [] rfl (window_eq s.params s.wrow s.wcol) (sends_wrs _) hready hj hack hnack hrel

/-! ### CLEAR (R96) -/

/-- CLEAR's data stream without its conditions: the address byte, the control byte and the loop of zeros. -/
def clearStream (p : Config.Params) : List Micro :=
  [addressByte p.displayAddr .write, p.ctrlData].map .wr ++ [Micro.zeros 1024]

/-- The bytes of CLEAR's data stream. -/
def clearStreamBytes (p : Config.Params) : List Byte :=
  [addressByte p.displayAddr .write, p.ctrlData] ++ List.replicate 1024 (0x00 : Byte)

theorem sends_clearStream (p : Config.Params) : Sends (clearStream p) (clearStreamBytes p) :=
  (sends_wrs _).append (sends_zeros 1024)

theorem length_clearStreamBytes (p : Config.Params) : (clearStreamBytes p).length = 1026 := by
  rw [clearStreamBytes, List.length_append, List.length_replicate]
  rfl

theorem commandScript_clear (s : State) :
    commandScript .clear s = startCond ++ ((windowBytes s.params 0 0).map .wr ++
      (stopCond ++ (startCond ++ (clearStream s.params ++ (stopCond ++ [Micro.setRow 0, Micro.setCol 0]))))) := by
  simp [commandScript, window_eq, conn, clearStream, Config.clearBytes]

/-- Settles O39: CLEAR is the full window, the data stream of zeros and the two writes that home the cursor. -/
theorem clearBlanksTheDisplay : Obligations.ClearBlanksTheDisplay := by
  have htotal (s : State) : (windowBytes s.params 0 0).length + (clearStreamBytes s.params).length = 1034 := by
    rw [length_clearStreamBytes]; rfl
  refine ⟨decode_encode .clear, fun s hready hack hrel => ?_, fun s j hready hj hack hnack hrel => ?_,
    fun s hs hheld => exec_of_held rfl hs hheld⟩
  · have hsucceeds := exec_succeeds_two (cur := (0, 0)) rfl (commandScript_clear s) (sends_wrs _)
      (sends_clearStream s.params) (List.cons_ne_nil _ _)
      (fun u k _ => Steps.head rfl (Steps.head rfl (Steps.refl _))) hready
      (by rwa [htotal]) (by rwa [htotal])
    rwa [htotal] at hsucceeds
  · exact exec_aborts_two rfl (commandScript_clear s) (sends_wrs _) (sends_clearStream s.params) hready
      (hj.trans_eq (htotal s).symm) hack hnack hrel

/-! ### `Advance()` (R98) -/

/-- Short of the wrap the next cell is six columns on. -/
theorem nextCell_of_lt (r : Row) {c : Col} (h : c.toNat < 120) :
    nextCell (r, c) = (r, BitVec.ofNat 7 (c.toNat + 6)) := by
  rw [nextCell, if_neg (by simpa using h)]

/-- At the wrap the next cell is the start of the next row, modulo 8. -/
theorem nextCell_of_le (r : Row) {c : Col} (h : 120 ≤ c.toNat) : nextCell (r, c) = (r + 1, 0) := by
  rw [nextCell, if_pos (by simpa using h)]
  congr 1
  exact BitVec.eq_of_toNat_eq (by simp)

/-- The wrap at column 126 after the advance is at column 120 before it. -/
theorem wrapCol_le_advancedColumn_iff (c : Col) : Config.wrapCol ≤ advancedColumn c ↔ 120 ≤ c.toNat := by
  simp [Config.wrapCol, advancedColumn, Config.glyphW]

/-- The engine's run of `Advance()` from any cursor: its register writes are those of `nextCell`. -/
theorem steps_advance (s : State) (k : List Micro) :
    Steps (s.goOn (.advance :: k))
      (State.goOn k { s with curRow := (nextCell s.cursor).1, curCol := (nextCell s.cursor).2 }) := by
  refine Steps.head (t := s.goOn (advanceWrites s.curRow s.curCol ++ k)) rfl ?_
  simp only [State.cursor, advanceWrites, wrapCol_le_advancedColumn_iff]
  by_cases hwrap : 120 ≤ s.curCol.toNat
  · rw [nextCell_of_le _ hwrap, if_pos hwrap]
    exact Steps.head rfl (Steps.head rfl (Steps.refl _))
  · rw [nextCell_of_lt _ (by omega), if_neg hwrap]
    exact Steps.head rfl (Steps.refl _)

/-- Up to twenty advances from the start of a row stay in it. -/
theorem iterate_nextCell_in_row (r : Row) {n : Nat} (hn : n ≤ 20) :
    nextCell^[n] (r, 0) = (r, BitVec.ofNat 7 (6 * n)) := by
  induction n with
  | zero => rfl
  | succ n ih =>
    have hcol : (BitVec.ofNat 7 (6 * n)).toNat = 6 * n := by simp; omega
    rw [Function.iterate_succ_apply', ih (by omega), nextCell_of_lt r (by omega), hcol, Nat.mul_succ]

/-- Twenty-one advances are one row. -/
theorem iterate_nextCell_row (r : Row) : nextCell^[21] (r, 0) = (r + 1, 0) := by
  rw [Function.iterate_succ_apply', iterate_nextCell_in_row r le_rfl]
  exact nextCell_of_le r (by decide)

theorem iterate_nextCell_rows (r : Row) (n : Nat) :
    (nextCell^[21])^[n] (r, 0) = (r + BitVec.ofNat 3 n, 0) := by
  induction n with
  | zero => simp
  | succ n ih =>
    rw [Function.iterate_succ_apply', ih, iterate_nextCell_row, BitVec.ofNat_add, BitVec.add_assoc]
    rfl

/-- Every cell is a number of advances from the start of its row, and 8 rows of advances from there lead back to it. -/
theorem iterate_nextCell_screen (r : Row) {c : Col} (hc : isCell c = true) : nextCell^[168] (r, c) = (r, c) := by
  simp only [isCell, Bool.and_eq_true, beq_iff_eq, decide_eq_true_eq] at hc
  obtain ⟨hmul, hle⟩ := hc
  have hcell : (r, c) = nextCell^[c.toNat / 6] (r, 0) := by
    rw [iterate_nextCell_in_row r (by omega), Nat.mul_div_cancel' (Nat.dvd_of_mod_eq_zero hmul)]
    simp
  have hback : nextCell^[168] (r, 0) = (r, 0) := by
    rw [show (168 : Nat) = 21 * 8 from rfl, Function.iterate_mul, iterate_nextCell_rows]
    simp
  calc nextCell^[168] (r, c) = nextCell^[168] (nextCell^[c.toNat / 6] (r, 0)) := by rw [← hcell]
    _ = nextCell^[c.toNat / 6] (nextCell^[168] (r, 0)) := by
      rw [← Function.iterate_add_apply, Nat.add_comm, Function.iterate_add_apply]
    _ = (r, c) := by rw [hback, ← hcell]

/-- Settles O41: the engine's `Advance()` is `nextCell`, whose wraps are counted by rows. -/
theorem advanceWrapsTheCursor : Obligations.AdvanceWrapsTheCursor := by
  refine ⟨fun s k hseq hin => ?_, by decide, by decide, by decide, iterate_nextCell_row,
    fun r _ hc => iterate_nextCell_screen r hc⟩
  have hsteps := steps_advance s k
  rw [State.goOn_of_seq hseq] at hsteps
  exact hsteps.runs hin

/-! ### GLYPH (R97) -/

/-- The bytes of GLYPH's data stream. -/
def glyphStreamBytes (s : State) : List Byte :=
  addressByte s.params.displayAddr .write :: s.params.ctrlData :: glyphBytes s

theorem commandScript_glyph (s : State) :
    commandScript .glyph s = startCond ++ ((windowBytes s.params s.curRow s.curCol).map .wr ++
      (stopCond ++ (startCond ++ ((glyphStreamBytes s).map .wr ++ (stopCond ++ [Micro.advance]))))) := by
  simp [commandScript, window_eq, conn, glyphStreamBytes]

/-- Settles O40: GLYPH is the window at the cursor, the data stream of the glyph buffer and `Advance()`. -/
theorem glyphDrawsAndAdvances : Obligations.GlyphDrawsAndAdvances := by
  refine ⟨decode_encode .glyph, fun s hready hack hrel => ?_, fun s j hready hj hack hnack hrel => ?_,
    fun s hs hheld => exec_of_held rfl hs hheld⟩
  · exact exec_succeeds_two (cur := nextCell s.cursor) rfl (commandScript_glyph s) (sends_wrs _) (sends_wrs _)
      (List.cons_ne_nil _ _) (fun u k hkept => hkept ▸ steps_advance u k) hready hack hrel
  · exact exec_aborts_two rfl (commandScript_glyph s) (sends_wrs _) (sends_wrs _) hready hj hack hnack hrel

end Sys2Proof.Machine
end

