-- ==== Sys2Proof/Proofs/Exceptions.lean ====
section
/-! PROOFS. The statement of 60_exceptions.md: the state an aborted command leaves, and STOP as the one command out of it. -/

namespace Sys2Proof.Machine

/-! ### The engine writes `_bus` only where the pseudocode says so (41_bus_engine.md R81, R82) -/

/-- A step of the pseudocode other than a write of `_bus`. -/
def Micro.keepsBus : Micro → Bool
  | .setBus _ => false
  | _         => true

theorem runMicro_bus {m : Micro} (k : List Micro) (s : State) (hm : m.keepsBus = true) :
    (runMicro m k s).bus = s.bus := by
  cases m with
  | setBus b => cases hm
  | waitScl => simp only [runMicro, stepWaitScl]; split <;> simp
  | sample use => simp [runMicro, stepSample]
  | outLoop => simp only [runMicro, stepOutLoop]; split <;> rfl
  | inLoop => simp only [runMicro, stepInLoop]; split <;> rfl
  | zeros n => cases n <;> rfl
  | abortIf b => cases b <;> rfl
  | _ => rfl

theorem afterSample_keepsBus (b : Level) (use : SlotUse) : (afterSample b use).all Micro.keepsBus = true := by
  cases use <;> rfl

theorem advanceWrites_keepsBus (r : Row) (c : Col) : (advanceWrites r c).all Micro.keepsBus = true := by
  unfold advanceWrites; split <;> rfl

/-- No step unfolds into a write of `_bus`. -/
theorem runMicro_leaves_keepsBus {m : Micro} {k k' : List Micro} {s : State} (hs : s.seq = some (m :: k))
    (hm : m.keepsBus = true) (hk : k.all Micro.keepsBus = true) (hk' : (runMicro m k s).seq = some k') :
    k'.all Micro.keepsBus = true := by
  cases m with
  | waitScl =>
    simp only [runMicro, stepWaitScl] at hk'
    split at hk'
    · cases hk'; exact hk
    · rw [State.afterSclDraw_seq, hs] at hk'
      cases hk'; exact hk
  | sample use => cases hk'; rw [List.all_append, afterSample_keepsBus, hk]; rfl
  | advance => cases hk'; rw [List.all_append, advanceWrites_keepsBus, hk]; rfl
  | outLoop => simp only [runMicro, stepOutLoop] at hk'; split at hk' <;> cases hk' <;> exact hk
  | inLoop => simp only [runMicro, stepInLoop] at hk'; split at hk' <;> cases hk' <;> exact hk
  | zeros n => cases n <;> cases hk' <;> exact hk
  | abortIf b =>
    cases b with
    | true => cases hk'; rfl
    | false => cases hk'; exact hk
  | _ => cases hk'; exact hk

/-- A command whose pseudocode writes no `_bus` leaves it alone at every point of its run. -/
theorem iterate_engineStep_bus {s : State} {k : List Micro} (hs : s.seq = some k) (hk : k.all Micro.keepsBus = true)
    (n : Nat) : (engineStep^[n] s).bus = s.bus :=
  iterate_engineStep_keeps State.bus Micro.keepsBus
    (fun _ k s hs hm hk => ⟨runMicro_bus k s hm, fun _ => runMicro_leaves_keepsBus hs hm hk⟩) (fun _ => rfl) n s k hs hk

/-! ### Commands in HELD (30_encoding.md R60; 60_exceptions.md R108) -/

/-- Of the commands HELD accepts only STOP writes `_bus`. -/
theorem commandScript_keepsBus {i : Instr} (s : State) (hi : requiredBus i = .held) (hne : i ≠ .stop) :
    (commandScript i s ++ [Micro.setCode .ok]).all Micro.keepsBus = true := by
  cases i with
  | stop => exact absurd rfl hne
  | start | connect | init | setwin | clear | glyph => cases hi
  | wrbyte | rdbyte | ackbit | ctrlbyte => rfl

/-- At every point of the run of a command other than STOP, issued at rest in HELD, `_bus` is HELD: a command that
requires IDLE does not run, and one that requires HELD keeps it. -/
theorem run_held_of_ne_stop {i : Instr} {s t g : State} {n : Nat} (hs : s.seq = none) (hheld : s.bus = .held)
    (hin : s.inputs = []) (hne : i ≠ .stop) (he : exec i s = .next t)
    (hrun : Host.Core.run Sys2Proof.core n t = .next g) : g.bus = .held := by
  obtain ⟨-, hmoves⟩ := exec_view hs he .hostOnly
  rw [run_of_no_inputs (hmoves.trans hin)] at hrun
  cases hrun
  cases hreq : requiredBus i with
  | idle =>
    rw [exec_of_held hreq hs hheld] at he
    cases he
    rw [iterate_engineStep_of_none]
    · exact hheld
    · exact hs
  | held =>
    rw [exec_of_ready hs (hheld.trans hreq.symm)] at he
    cases he
    exact (iterate_engineStep_bus rfl (commandScript_keepsBus s hreq hne) n).trans hheld

/-! ### After an abort (60_exceptions.md R107, R108) -/

/-- An aborted command leaves the block at rest in HELD with SCL low (R107), as STOP requires. -/
theorem readyHeld_of_abortedAt {s f : State} {ts : List (List Byte)} {j : Nat} (hin : s.inputs = [])
    (hf : f = s.abortedAt ts j f) : f.readyHeld := by
  rw [hf]
  exact ⟨rfl, rfl, rfl, hin⟩

/-- Settles O42: an abort leaves the block at rest in HELD, where a command that requires IDLE is rejected and every other
but STOP keeps HELD; STOP leads to rest in IDLE, where the commands that require it are accepted. -/
theorem stopRecoversFromAnAbort : Obligations.StopRecoversFromAnAbort := by
  intro s f ts j hin hf
  have hready : f.readyHeld := readyHeld_of_abortedAt hin hf
  have ⟨hs, hheld, _, hfin⟩ := hready
  refine ⟨fun i hi => exec_of_held hi hs hheld, fun i t g n hne => run_held_of_ne_stop hs hheld hfin hne, fun hrel => ?_⟩
  obtain ⟨-, hstop, -⟩ := stopReleasesTheBus
  obtain ⟨t, g, ht, hrun, hg⟩ := hstop f hready hrel
  refine ⟨t, g, ht, hrun, hg, fun i hi => ?_⟩
  have hgs : g.seq = none := by rw [hg]; exact hs
  have hgidle : g.bus = .idle := by rw [hg]
  exact ⟨_, exec_of_ready hgs (hgidle.trans hi.symm), rfl⟩

end Sys2Proof.Machine
end

