-- ==== Sys2Proof/Proofs/ResetAndHazards.lean ====
section
/-! PROOFS. The statements of 70_reset_and_hazards.md: the reset input, the end of a run, and the sums of the holds. -/

namespace Sys2Proof.Machine

/-! ### The reset input and the end of a run (70_reset_and_hazards.md R118, R119, R133) -/

/-- Settles O15: the reset is one move whatever runs, and its result is the reset state but for what lies outside the
block. -/
theorem resetInputActsAtAnyTime : Obligations.ResetInputActsAtAnyTime := by
  intro s rest h
  calc step s = performInput .reset { s with inputs := rest } := step_of_input h
    _ = .next ({ s with inputs := rest } : State).resetBlock := rfl

/-- Settles O24: with no move to come a run is the engine's own, and with no command running the engine rests. -/
theorem endedRunStaysAsItIs : Obligations.EndedRunStaysAsItIs := by
  intro s n ⟨hin, hbusy⟩
  have hseq : s.seq = none := (State.busy_eq_false_iff s).1 hbusy
  rw [run_of_no_inputs hin, iterate_engineStep_of_none hseq]

/-! ### The holds of a piece of pseudocode (70_reset_and_hazards.md R129) -/

/-- The holds of two pieces in a row add up, since no step but a hold counts. -/
theorem heldFor_append (p : Config.Params) (ms ns : List Micro) :
    heldFor p (ms ++ ns) = heldFor p ms + heldFor p ns := by
  induction ms with
  | nil => exact (Nat.zero_add _).symm
  | cons m ms ih =>
    cases m with
    | hold t => simp [heldFor, ih, Nat.add_assoc]
    | _ => exact ih

/-- The slot up to its sample: SCL low, then high for the setup margin. -/
theorem heldFor_clockBit (p : Config.Params) (v : Level) (use : SlotUse) :
    heldFor p (clockBit v use) = p.tLow + p.tSu := rfl

/-- What the caller does with a sampled bit takes no hold. -/
theorem heldFor_slotResult (p : Config.Params) (b : Level) (use : SlotUse) : heldFor p (slotResult b use) = 0 := by
  cases use <;> rfl

/-- The slot after its sample: the rest of the high phase. -/
theorem heldFor_afterSample (p : Config.Params) (b : Level) (use : SlotUse) :
    heldFor p (afterSample b use) = p.tHigh - p.tSu := by
  rw [afterSample, heldFor_append, heldFor_slotResult]
  simp [heldFor, holdTime]

theorem heldFor_startCond (p : Config.Params) : heldFor p startCond = p.tSu + p.tHigh := rfl

theorem heldFor_stopCond (p : Config.Params) : heldFor p stopCond = p.tLow + (p.tSu + p.tLow) := rfl

/-- Settles O29: the setup margin a slot holds before its sample is what its high phase is short of after it, as long as
the margin fits in the high phase. -/
theorem holdsOfSlotAndConditionsAddUp : Obligations.HoldsOfSlotAndConditionsAddUp := by
  intro p v b use hsu
  refine ⟨?_, heldFor_startCond p, ?_⟩
  · rw [heldFor_append, heldFor_clockBit, heldFor_afterSample]
    omega
  · rw [heldFor_stopCond]
    omega

end Sys2Proof.Machine
end
